-- ==== Sys2Proof/Word.lean ====
section
/-! DEFINITION. The word types of the block: bytes, 20-bit command words, 7-bit codewords, frames.
All values are unsigned (00_scope.md R6). -/

namespace Sys2Proof

/-- A byte: the unit of frames, registers and messages. -/
abbrev Byte := BitVec 8

/-- A command word `cw20` (30_encoding.md R60). -/
abbrev CmdWord := BitVec 20

/-- A codeword: one 7-bit entry of the block-code table (40_block_code.md R80). -/
abbrev Codeword := BitVec 7

/-- The bytes of a frame in ascending offset order (20_memory.md R46). -/
abbrev Frame := List Byte

end Sys2Proof
end

