-- ==== Sys2Proof/Syntax.lean ====
section
/-! DEFINITION. The eight commands of the block (30_encoding.md R64, spec/opcode_table.json), one
constructor per row. Operands have the widths of the encoding, so that every term is a command some
word stands for; the well-formedness of words is in WellFormed.lean. -/

namespace Sys2Proof

/-- The channel layout selector, "four enumerated values" (10_state.md R14). -/
inductive Layout where
  | mono | dual | joint | stereo
deriving DecidableEq, Repr

/-- A command. `PRODUCE` and `EOS` take nothing from the command word; their side-band operands come
with the command event (30_encoding.md R62, R67). -/
inductive Instr where
  /-- `WRSID k, d`: write one byte of the station identity (44_config_access.md R150). -/
  | wrsid (k : BitVec 5) (d : Byte)
  /-- `WRCTL layout, ie`: write the configuration register (R151). -/
  | wrctl (layout : Layout) (ie : Bool)
  /-- `START`: end configuration (R152). -/
  | start
  /-- `PRODUCE`: take the encoder's output for one call (43_frame_scheduler.md R132). -/
  | produce
  /-- `EOS`: end of stream, with the encoder's flush (R134). -/
  | eos
  /-- `RDREG a`: read one register (44_config_access.md R153). -/
  | rdreg (a : Byte)
  /-- `ENC4 v`: look up one nibble (40_block_code.md R83). -/
  | enc4 (v : BitVec 4)
  /-- `ENC8 b`: encode one byte (R84). -/
  | enc8 (b : Byte)
deriving DecidableEq, Repr

end Sys2Proof
end

