-- ==== Sys2Proof/WellFormed.lean ====
section
/-! DEFINITION. Well-formed command words: the reading of 30_encoding.md R61 and R65, field by field,
written apart from the match and mask table of R64 and R70 that the decoder follows. Terms of `Instr`
need no check of their own: their operand types hold exactly the values the encoding has. -/

namespace Sys2Proof

/-- The four formats of R61: which of the fields `a` and `d` a command uses. -/
inductive Format where
  | n | a | d | ad
deriving DecidableEq, Repr

/-- The mnemonic and format that an opcode stands for; none for the reserved opcodes (R64). -/
def formatOf (op : BitVec 4) : Option Format :=
  match op.toNat with
  | 1 => some .ad
  | 2 => some .d
  | 3 => some .n
  | 4 => some .n
  | 5 => some .n
  | 6 => some .a
  | 7 => some .d
  | 8 => some .d
  | _ => none

/-- Fields that the format does not use must be zero (R61). -/
def formatOk (f : Format) (a d : Byte) : Bool :=
  match f with
  | .n => a == 0 && d == 0
  | .a => d == 0
  | .d => a == 0
  | .ad => true

/-- The constraint a single row puts on the fields it does use (R64, third column): `a[7:5]` of `WRSID`,
`d[7:3]` of `WRCTL`, `d[7:4]` of `ENC4`. -/
def operandOk (op : BitVec 4) (a d : Byte) : Bool :=
  match op.toNat with
  | 1 => decide (a.toNat < 32)
  | 2 => decide (d.toNat < 8)
  | 7 => decide (d.toNat < 16)
  | _ => true

/-- A command word is well formed when it is not illegal in the sense of R65. -/
def CmdWord.wellFormed (w : CmdWord) : Bool :=
  let op := w.extractLsb' 16 4
  let a := w.extractLsb' 8 8
  let d := w.extractLsb' 0 8
  match formatOf op with
  | none => false
  | some f => formatOk f a d && operandOk op a d

end Sys2Proof
end

