-- ==== Sys2Proof/Decode.lean ====
section
/-! DEFINITION. Decoding (30_encoding.md R64, R67, R70), total on all 2^20 words and rejecting by name, and
the encoder, written from the same encodings. -/

namespace Sys2Proof

/-- `LAYOUT` as a 2-bit value (10_state.md R14). -/
def Layout.bits : Layout → BitVec 2
  | .mono => 0
  | .dual => 1
  | .joint => 2
  | .stereo => 3

/-- The layout that a 2-bit value selects; all four are legal (R14). -/
def Layout.ofBits (b : BitVec 2) : Layout :=
  if b = 0 then .mono else if b = 1 then .dual else if b = 2 then .joint else .stereo

/-- Field `op`, bits 19:16 (R60). -/
def opField (w : CmdWord) : BitVec 4 := w.extractLsb' 16 4

/-- Field `a`, bits 15:8 (R60). -/
def aField (w : CmdWord) : Byte := w.extractLsb' 8 8

/-- Field `d`, bits 7:0 (R60). -/
def dField (w : CmdWord) : Byte := w.extractLsb' 0 8

/-- One row of the opcode map: a word `w` is the command when `w & mask = pattern` (R64); `build` reads
the operands (R67). -/
structure OpcodeRow where
  pattern : CmdWord
  mask : CmdWord
  build : CmdWord → Instr

/-- The match and mask table of R64, with the operand assembly of R67. -/
def opcodeRows : List OpcodeRow :=
  [ ⟨0x10000, 0xFE000, fun w => .wrsid ((aField w).extractLsb' 0 5) (dField w)⟩,
    ⟨0x20000, 0xFFFF8, fun w => .wrctl (Layout.ofBits ((dField w).extractLsb' 1 2)) ((dField w).getLsbD 0)⟩,
    ⟨0x30000, 0xFFFFF, fun _ => .start⟩,
    ⟨0x40000, 0xFFFFF, fun _ => .produce⟩,
    ⟨0x50000, 0xFFFFF, fun _ => .eos⟩,
    ⟨0x60000, 0xF00FF, fun w => .rdreg (aField w)⟩,
    ⟨0x70000, 0xFFFF0, fun w => .enc4 ((dField w).extractLsb' 0 4)⟩,
    ⟨0x80000, 0xFFF00, fun w => .enc8 (dField w)⟩ ]

/-- Does the row take the word? (R70 step 1) -/
def OpcodeRow.takes (r : OpcodeRow) (w : CmdWord) : Bool := w &&& r.mask == r.pattern

/-- Why a word is illegal (R65). -/
inductive IllegalWord where
  /-- `op` is 0x0 or 0x9 to 0xF. -/
  | reservedOpcode
  /-- A field that must be zero is not zero. -/
  | fieldNotZero
deriving DecidableEq, Repr

/-- The name of the ground on which a word that no row takes is rejected (R65). -/
def illegalGround (w : CmdWord) : IllegalWord :=
  if 1 ≤ (opField w).toNat ∧ (opField w).toNat ≤ 8 then .fieldNotZero else .reservedOpcode

/-- The decoding procedure R70. -/
def decode (w : CmdWord) : Except IllegalWord Instr :=
  match opcodeRows.find? (fun r => r.takes w) with
  | some r => .ok (r.build w)
  | none => .error (illegalGround w)

/-- A word from its three fields (R60). -/
def mkWord (op : BitVec 4) (a d : Byte) : CmdWord := op ++ a ++ d

/-- The word of a command (R64): its opcode, with zero in every field it does not use (R61). -/
def encode : Instr → CmdWord
  | .wrsid k d => mkWord 1 (k.setWidth 8) d
  | .wrctl layout ie => mkWord 2 0 ((0 : BitVec 5) ++ layout.bits ++ BitVec.ofBool ie)
  | .start => mkWord 3 0 0
  | .produce => mkWord 4 0 0
  | .eos => mkWord 5 0 0
  | .rdreg a => mkWord 6 a 0
  | .enc4 v => mkWord 7 0 (v.setWidth 8)
  | .enc8 b => mkWord 8 0 b

/-- The host's reading of one table row's word: its bits are the command word itself, which has no byte
order. A command word has 20 bits, so a number of 2^20 or more is no word of the block. -/
def decodeTableWord (nbits w : Nat) : Option Instr :=
  if w % 2 ^ nbits < 2 ^ 20 then (decode (BitVec.ofNat 20 (w % 2 ^ nbits))).toOption else none

end Sys2Proof
end

