-- ==== Sys2Proof/Config.lean ====
section
/-! DEFINITION. The parameters of the block: those 00_scope.md R4 leaves open, and those that
93_implementation_defined.md (U4, U5, U6, U13) asks a model to keep as parameters. A value of `Params`
is fixed for the life of an instance: no command and no reset changes it. -/

namespace Sys2Proof

/-- `CK_START`: the index in the message of the first byte the checksum sums (41_control_message_cycle.md
R95, 93_implementation_defined.md U5). -/
inductive CkStart where
  /-- `CK_START` = 1: the sum starts at the type byte. This hardware (D13). -/
  | typeByte
  /-- `CK_START` = 2: the sum starts at the first payload byte. -/
  | payload
deriving DecidableEq, Repr

/-- `BIT7_MODE`: what becomes of bit 7 of a message byte that enters `ANC` (42_ancillary_builder.md R111,
93_implementation_defined.md U4). -/
inductive Bit7Mode where
  /-- The flag replaces bit 7. This hardware (D15). -/
  | replaceBit
  /-- The flag is OR-ed into bit 7. -/
  | orBit
deriving DecidableEq, Repr

/-- The parameters of one instance of the block (00_scope.md R4). -/
structure Params where
  /-- `F_BYTES` - 576. The bound `F_BYTES >= 576` of 20_memory.md R42 holds by construction, so an
  instance with a smaller frame cannot be written down (93_implementation_defined.md U13). -/
  extra : Nat
  /-- `CK_START` (U5). -/
  ckStart : CkStart
  /-- `HEX_UPPER` (U6): checksum digits 10 to 15 are upper case. -/
  hexUpper : Bool
  /-- `BIT7_MODE` (U4). -/
  bit7 : Bit7Mode
deriving DecidableEq, Repr

/-- `F_BYTES`, the byte length of every frame (R4, R42). -/
def Params.fBytes (p : Params) : Nat := 0x240 + p.extra

/-- The values this hardware takes (R4), for the frame length `F_BYTES` = 576 + `extra`. -/
def Params.hardware (extra : Nat) : Params :=
  { extra := extra, ckStart := .typeByte, hexUpper := true, bit7 := .replaceBit }

/-- The parameters other than the open `F_BYTES` have the values this hardware takes (R4). -/
abbrev Params.isHardware (p : Params) : Prop := p = Params.hardware p.extra

end Sys2Proof
end

