-- ==== Sys2Proof/Machine/State.lean ====
section
/-! DEFINITION. The state of the block (10_state.md R10 to R24), the reasons a model step can stop, and the
state after reset (R27). Below the block's own state stand three fields of the MODEL: the parameters, the
host's events still to come, and the responses the host has received (log 1, 3, 5). -/

namespace Sys2Proof.Machine

/-- `PHASE` (R11): which commands the block accepts. -/
inductive Phase where
  | config | run | done | error
deriving DecidableEq, Repr

/-- `ROT` (R20): the template to generate next. Value 3 never occurs and cannot be written here. -/
inductive Template where
  /-- Value 0: the service type message. -/
  | a
  /-- Value 1: the program information message. -/
  | b
  /-- Value 2: the station identity message. -/
  | c
deriving DecidableEq, Repr

/-- The cells of one frame slot: (offset, byte), offsets strictly rising. A byte that is not listed holds
no value (R22). -/
abbrev Memory := List Host.Cell

/-- The response of a command (30_encoding.md R63). -/
structure Response where
  /-- `rsp.err`: 0 for success, else the error code of 60_exceptions.md R166. -/
  err : BitVec 3
  /-- `rsp.data`. -/
  data : BitVec 16
  /-- `rsp.out`: none, or a copy of the emitted frame. -/
  out : Option Frame
deriving DecidableEq, Repr

/-- One thing the host does to the block (00_scope.md R5, 70_reset_and_hazards.md R185). -/
inductive HostEvent where
  /-- Issue a command word with its side-band operands (30_encoding.md R60, R62): `fin_len` is the length of
  `fin`. Commands that take no side-band operands ignore them. -/
  | command (word : CmdWord) (fin : List Byte) (scf : Vector Byte 4)
  /-- Assert the input `rst`. -/
  | rst
deriving DecidableEq, Repr

/-- The state of one instance. Every field down to `cw` is the block's own (R10); `ANC[0..14]` and the
hardwired bits of `CTRL` have no storage (R14, R23). -/
structure State where
  /-- `PHASE` (R11). -/
  phase : Phase
  /-- `ERRCODE` (R12): the first error raised since reset, or 0. -/
  errcode : BitVec 3
  /-- `SID[0..31]` (R13). -/
  sid : Vector Byte 32
  /-- `CTRL.IE` (R14). -/
  ie : Bool
  /-- `CTRL.LAYOUT` (R14). -/
  layout : Layout
  /-- `MSG[0..39]` (R17). -/
  msg : Vector Byte 40
  /-- `MLEN` (R18). -/
  mlen : BitVec 6
  /-- `CUR` (R19). -/
  cur : BitVec 6
  /-- `ROT` (R20). -/
  rot : Template
  /-- `FC` (R21), unbounded. -/
  fc : Nat
  /-- `SLOT[0]` (R22). -/
  slot0 : Memory
  /-- `SLOT[1]` (R22). -/
  slot1 : Memory
  /-- `ANC[15]` (R23). -/
  anc15 : Byte
  /-- `ANC[16]` (R23). -/
  anc16 : Byte
  /-- `ANC[17]` (R23). -/
  anc17 : Byte
  /-- `CW[0..35]` (R24). -/
  cw : Vector Codeword 36
  /-- The MODEL's field: the parameters of the instance (00_scope.md R4). -/
  par : Params
  /-- The MODEL's field: the host's events not yet executed, oldest first. -/
  pending : List HostEvent
  /-- The MODEL's field: the responses given since the last reset, oldest first. -/
  responses : List Response
deriving DecidableEq, Repr

/-- The reasons a step of the model stops. The block itself never stops: its errors are responses
(60_exceptions.md R168). No state that commands reach raises one of these (R22, R26, R42). -/
inductive Fault where
  /-- Raised by a read of a slot byte that holds no value, or a bit write to one (R7, R22). Safe: the
  spec asks for it (log 7). -/
  | noValue
  /-- Raised by an access to a slot at an offset of `F_BYTES` or more, which does not exist
  (20_memory.md R40, R42). Safe (log 8). -/
  | noSuchByte
  /-- Raised by `NextByte` when `CUR` is no index of `MSG` (R19; 41_control_message_cycle.md R98). Safe
  (log 9). -/
  | cursorPastBuffer
deriving DecidableEq, Repr

/-- The reasons the model gives an instruction no meaning. -/
inductive Refusal where
  /-- Raised by an arm of `exec` whose instruction has no meaning yet. Safe. No arm raises it. -/
  | notModelled (mnemonic : String)
deriving DecidableEq, Repr

/-- The block right after reset (R27), for an instance with the parameters `p`; no host event is pending
and no response has been given. -/
def State.resetWith (p : Params) : State :=
  { phase := .config
    errcode := 0
    sid := Vector.replicate 32 0
    ie := false
    layout := .mono
    msg := Vector.replicate 40 0
    mlen := 0
    cur := 0
    rot := .a
    fc := 0
    slot0 := []
    slot1 := []
    anc15 := 0
    anc16 := 0
    anc17 := 0
    cw := Vector.replicate 36 0
    par := p
    pending := []
    responses := [] }

/-- The machine right after reset (R27): an instance with the parameter values of 00_scope.md R4 and
`F_BYTES` = 576, the value of the spec's test vectors (DESIGN CHOICE, log 5). -/
def State.reset : State := State.resetWith (Params.hardware 0)

end Sys2Proof.Machine
end

