-- ==== Sys2Proof/Machine/Ops.lean ====
section
/-! DEFINITION. The named operations over slot memory (00_scope.md R7, 20_memory.md R40 to R48), the host's
side of a command (30_encoding.md R62, R63), and raising an error (60_exceptions.md R168) with the only way
back from one, reset (R170, 70_reset_and_hazards.md R185). -/

namespace Sys2Proof.Machine

/-! ## Memory: the cells of one slot -/

/-- What a byte that is not listed reads as: no value (10_state.md R22, R27). -/
def Memory.unlisted : Option Byte := none

/-- The value at an offset, if it holds one. -/
def Memory.byte? : Memory → Nat → Option Byte
  | [], _ => Memory.unlisted
  | (k, v) :: m, o => if k = o then some v else Memory.byte? m o

/-- Offsets strictly rise. -/
def Memory.rising : Memory → Bool
  | [] => true
  | [_] => true
  | (k, _) :: (k', v') :: m => decide (k < k') && Memory.rising ((k', v') :: m)

/-- The canonical form: offsets strictly rise, and no cell equals what an unlisted byte reads as. -/
def Memory.wf (m : Memory) : Bool :=
  Memory.rising m && m.all (fun c => some c.2 != Memory.unlisted)

/-- Every listed offset exists in a slot of `f` bytes (20_memory.md R40). -/
def Memory.within (f : Nat) (m : Memory) : Bool := m.all (fun c => decide (c.1 < f))

/-- The cells at offsets below `o`. -/
def Memory.before (m : Memory) (o : Nat) : Memory := m.filter (fun c => decide (c.1 < o))

/-- The cells at offsets from `o` on. -/
def Memory.onward (m : Memory) (o : Nat) : Memory := m.filter (fun c => decide (o ≤ c.1))

/-- Write one byte, keeping the canonical form. -/
def Memory.put : Memory → Nat → Byte → Memory
  | [], o, b => [(o, b)]
  | (k, v) :: m, o, b =>
    if o < k then (o, b) :: (k, v) :: m
    else if o = k then (o, b) :: m
    else (k, v) :: Memory.put m o b

/-- The cells of bytes laid out in ascending offset order from `o` on (20_memory.md R46). -/
def Memory.cells (o : Nat) : List Byte → Memory
  | [] => []
  | b :: bs => (o, b) :: Memory.cells (o + 1) bs

/-- Write bytes in ascending offset order from offset `o` on, in place of the cells of that range. -/
def Memory.putAll (m : Memory) (o : Nat) (bs : List Byte) : Memory :=
  m.before o ++ Memory.cells o bs ++ m.onward (o + bs.length)

/-- `MemRead` on one slot of `f` bytes (00_scope.md R7): the `n` bytes from offset `o` on, in ascending
offset order. The cells of the range are the `n` offsets one by one, or some byte holds no value. -/
def Memory.read (f : Nat) (m : Memory) (o n : Nat) : Except Fault (List Byte) :=
  if o + n ≤ f then
    if ((m.onward o).before (o + n)).map Prod.fst = List.range' o n then
      .ok (((m.onward o).before (o + n)).map Prod.snd)
    else .error .noValue
  else .error .noSuchByte

/-- `MemWrite` on one slot of `f` bytes (R7). -/
def Memory.write (f : Nat) (m : Memory) (o : Nat) (bs : List Byte) : Except Fault Memory :=
  if o + bs.length ≤ f then .ok (m.putAll o bs) else .error .noSuchByte

/-- A byte with bit `p` set to `b` and the other seven bits as they are (R7). -/
def setBit (v : Byte) (p : Nat) (b : Bool) : Byte :=
  if b then v ||| BitVec.twoPow 8 p else v &&& ~~~(BitVec.twoPow 8 p)

/-- `MemWriteBit` on one slot of `f` bytes (R7). -/
def Memory.writeBit (f : Nat) (m : Memory) (o p : Nat) (b : Bool) : Except Fault Memory :=
  if o < f then
    match m.byte? o with
    | none => .error .noValue
    | some v => .ok (m.put o (setBit v p b))
  else .error .noSuchByte

/-! ## The two slots -/

/-- One of the two frame slots (10_state.md R22). -/
inductive SlotId where
  | zero | one
deriving DecidableEq, Repr

/-- The slot of a frame number: even frames go to slot 0, odd frames to slot 1 (43_frame_scheduler.md
R130). -/
def SlotId.ofCounter (n : Nat) : SlotId := if n % 2 = 0 then .zero else .one

/-- `p = 1 - c` (R130). -/
def SlotId.other : SlotId → SlotId
  | .zero => .one
  | .one => .zero

/-- `SLOT[i]`. -/
def State.slot (s : State) : SlotId → Memory
  | .zero => s.slot0
  | .one => s.slot1

/-- Replace the cells of one slot. -/
def State.setSlot (s : State) (i : SlotId) (m : Memory) : State :=
  match i with
  | .zero => { s with slot0 := m }
  | .one => { s with slot1 := m }

/-- `SLOT[i][o]`, if it holds a value. -/
def State.byteAt (s : State) (i : SlotId) (o : Nat) : Option Byte := (s.slot i).byte? o

/-- `F_BYTES` of the instance (00_scope.md R4). -/
def State.fBytes (s : State) : Nat := s.par.fBytes

/-- `MemRead(i, o, n)` (R7). -/
def State.memRead (s : State) (i : SlotId) (o n : Nat) : Except Fault (List Byte) :=
  (s.slot i).read s.fBytes o n

/-- `MemWrite(i, o, n, v)` (R7), `n` being the length of `v`. -/
def State.memWrite (s : State) (i : SlotId) (o : Nat) (bs : List Byte) : Except Fault State :=
  match (s.slot i).write s.fBytes o bs with
  | .error e => .error e
  | .ok m => .ok (s.setSlot i m)

/-! ## The host's side of a command -/

/-- The event the host presents, if any. -/
def State.presented (s : State) : Option HostEvent := s.pending.head?

/-- The side-band operand `fin` of the command being executed (30_encoding.md R62). -/
def State.fin (s : State) : List Byte :=
  match s.pending with
  | .command _ fin _ :: _ => fin
  | _ => []

/-- The side-band operand `scf` of the command being executed (R62). -/
def State.scf (s : State) : Vector Byte 4 :=
  match s.pending with
  | .command _ _ scf :: _ => scf
  | _ => Vector.replicate 4 0

/-- Put a command word in front of the block, with the side-band operands that are presented now (none and
zeros when no command is presented). -/
def State.present (s : State) (w : CmdWord) : State :=
  { s with pending := .command w s.fin s.scf :: s.pending.tail }

/-- End the command being executed with response `r` (R63): the host takes the response and may issue its
next command (70_reset_and_hazards.md R188). -/
def State.respond (s : State) (r : Response) : State :=
  { s with pending := s.pending.tail, responses := s.responses ++ [r] }

/-- The response of a command that succeeds and returns nothing. -/
def Response.done : Response := { err := 0, data := 0, out := none }

/-- The response of a command that reads a value. -/
def Response.value (v : BitVec 16) : Response := { err := 0, data := v, out := none }

/-- The response of a command that may emit a frame. -/
def Response.frame (f : Option Frame) : Response := { err := 0, data := 0, out := f }

/-! ## Raising an error, and the way back -/

/-- The error conditions (60_exceptions.md R166). -/
inductive Err where
  | illegalCmd | seqErr | cfgErr | lenErr | addrErr
deriving DecidableEq, Repr

/-- The 3-bit code of an error (R166). -/
def Err.code : Err → BitVec 3
  | .illegalCmd => 1
  | .seqErr => 2
  | .cfgErr => 3
  | .lenErr => 4
  | .addrErr => 5

/-- The part of `raise E` that is state: the first error since reset is kept, and the phase becomes ERROR
(R168). -/
def State.recordError (s : State) (e : Err) : State :=
  if s.phase = .error then s else { s with errcode := e.code, phase := .error }

/-- `raise E` (R168): the command ends with the error and changes nothing else. -/
def State.raise (s : State) (e : Err) : State :=
  (s.recordError e).respond { err := e.code, data := 0, out := none }

/-- The input `rst` (70_reset_and_hazards.md R185), the only way out of phases DONE and ERROR (R170): every
state element takes its reset value. The instance keeps its parameters and the host its further
events (DESIGN CHOICE, log 6). -/
def State.applyReset (s : State) : State :=
  { State.resetWith s.par with pending := s.pending.tail }

end Sys2Proof.Machine
end

