-- ==== Sys2Proof/Machine/Flags.lean ====
section
/-! DEFINITION. The flags: the three flag bits of the ancillary data (10_state.md R15, R16;
42_ancillary_builder.md R111), and the bits of `CTRL` and `STATUS` (10_state.md R14, R28). -/

namespace Sys2Proof.Machine

/-- `SKP`, start of key period: hardwired 0 (R15). -/
def flagSkp : Bool := false

/-- `RDSC`, RDS complement: hardwired 0 (R15). -/
def flagRdsc : Bool := false

/-- `IP`, integrity check present: `CTRL.IE` on every frame (R16). -/
def State.flagIp (s : State) : Bool := s.ie

/-- A message byte with its flag in bit 7: replaced or, under the other value of `BIT7_MODE`, OR-ed
(R111; 93_implementation_defined.md U4). -/
def withFlag (mode : Bit7Mode) (flag : Bool) (b : Byte) : Byte :=
  match mode with
  | .replaceBit => BitVec.ofBool flag ++ b.extractLsb' 0 7
  | .orBit => b ||| (BitVec.ofBool flag ++ (0 : BitVec 7))

/-- `PHASE` as 2 bits (R11). -/
def Phase.code : Phase → BitVec 2
  | .config => 0
  | .run => 1
  | .done => 2
  | .error => 3

/-- `ROT` as 2 bits (R20). -/
def Template.code : Template → BitVec 2
  | .a => 0
  | .b => 1
  | .c => 2

/-- `FCPAR`: `FC mod 2` (R28). -/
def State.fcPar (s : State) : Bool := s.fc % 2 == 1

/-- `FCNZ`: is `FC` above 0? (R28) -/
def State.fcNz (s : State) : Bool := decide (0 < s.fc)

/-- `STATUS` (R28): bits 1:0 `PHASE`, 4:2 `ERRCODE`, 5 `FCPAR`, 6 `FCNZ`, 7 reads 0. -/
def State.statusByte (s : State) : Byte :=
  (0 : BitVec 1) ++ BitVec.ofBool s.fcNz ++ BitVec.ofBool s.fcPar ++ s.errcode ++ s.phase.code

/-- `CTRL` (R14): bit 0 `IE`, bits 2:1 `LAYOUT`, bit 3 `SKP`, bit 4 `RDSC`, bits 7:5 read 0. -/
def State.ctrlByte (s : State) : Byte :=
  (0 : BitVec 3) ++ BitVec.ofBool flagRdsc ++ BitVec.ofBool flagSkp ++ s.layout.bits ++ BitVec.ofBool s.ie

end Sys2Proof.Machine
end

