-- ==== Sys2Proof/Machine/Operands.lean ====
section
/-! DEFINITION. The operand forms: the register numbers of `RDREG` (10_state.md R28) and what each register
reads as, the hardwired bytes of `ANC` among them (R23). -/

namespace Sys2Proof.Machine

/-- The mode character of a layout (R29; 41_control_message_cycle.md R101): `M`, `A`, `S`, `S`
(PRESUMED as ASCII, log 10). -/
def modeChar : Layout → Byte
  | .mono => 0x4D
  | .dual => 0x41
  | .joint => 0x53
  | .stereo => 0x53

/-- `MODECH`: a view of `CTRL.LAYOUT` (R29). -/
def State.modeCh (s : State) : Byte := modeChar s.layout

/-- `ANC[k]`: bytes 0 to 14 are hardwired 0x00 (R23). -/
def State.ancByte (s : State) (k : Nat) : Byte :=
  if k = 15 then s.anc15 else if k = 16 then s.anc16 else if k = 17 then s.anc17 else 0

/-- The registers of the read port (R28). -/
inductive Reg where
  | sid (k : Fin 32)
  | ctrl
  | status
  | rot
  | cur
  | mlen
  | modech
  | msg (k : Fin 40)
  | anc (k : Fin 18)
  | cw (k : Fin 36)
deriving DecidableEq, Repr

/-- The register that a number names; none for an unmapped number (R28). -/
def Reg.ofNumber (a : Byte) : Option Reg :=
  if h : a.toNat < 0x20 then some (.sid ⟨a.toNat, h⟩)
  else if a.toNat = 0x20 then some .ctrl
  else if a.toNat = 0x21 then some .status
  else if a.toNat = 0x22 then some .rot
  else if a.toNat = 0x23 then some .cur
  else if a.toNat = 0x24 then some .mlen
  else if a.toNat = 0x25 then some .modech
  else if h : 0x40 ≤ a.toNat ∧ a.toNat < 0x68 then some (.msg ⟨a.toNat - 0x40, by omega⟩)
  else if h : 0x80 ≤ a.toNat ∧ a.toNat < 0x92 then some (.anc ⟨a.toNat - 0x80, by omega⟩)
  else if h : 0xA0 ≤ a.toNat ∧ a.toNat < 0xC4 then some (.cw ⟨a.toNat - 0xA0, by omega⟩)
  else none

/-- `REG[a]`: the 8-bit value a register reads as; bits above a field's width read 0 (R28). -/
def State.readReg (s : State) : Reg → Byte
  | .sid k => s.sid[k]
  | .ctrl => s.ctrlByte
  | .status => s.statusByte
  | .rot => s.rot.code.setWidth 8
  | .cur => s.cur.setWidth 8
  | .mlen => s.mlen.setWidth 8
  | .modech => s.modeCh
  | .msg k => s.msg[k]
  | .anc k => s.ancByte k
  | .cw k => s.cw[k].setWidth 8

end Sys2Proof.Machine
end

