-- ==== Sys2Proof/Machine/BlockCode.lean ====
section
/-! DEFINITION. The unit `BlockCodeTable` (40_block_code.md) and its commands `ENC4` and `ENC8`. -/

namespace Sys2Proof.Machine

/-- The sixteen codewords in the order of the input value (R80). -/
def bctTable : Vector Codeword 16 :=
  #v[0x00, 0x07, 0x19, 0x1E, 0x2A, 0x2D, 0x33, 0x34, 0x4B, 0x4C, 0x52, 0x55, 0x61, 0x66, 0x78, 0x7F]

/-- `BCT[v]` (R80). -/
def bct (v : BitVec 4) : Codeword := bctTable[v.toNat]'(v.isLt)

/-- The low nibble of a byte (00_scope.md R6). -/
def lowNibble (b : Byte) : BitVec 4 := b.extractLsb' 0 4

/-- The high nibble of a byte (00_scope.md R6). -/
def highNibble (b : Byte) : BitVec 4 := b.extractLsb' 4 4

/-- `EncByte(b)` (R82): the codeword of the low nibble, then that of the high nibble. -/
def encByte (b : Byte) : Codeword × Codeword := (bct (lowNibble b), bct (highNibble b))

/-- `rsp.data` of `ENC8` (R84): bit 15 = 0, bits 14:8 the high nibble's codeword, bit 7 = 0, bits 6:0 the low
nibble's. -/
def packPair (p : Codeword × Codeword) : BitVec 16 :=
  (0 : BitVec 1) ++ p.2 ++ (0 : BitVec 1) ++ p.1

/-- `ENC4 v` (R83). -/
def execEnc4 (v : BitVec 4) (s : State) : Host.Outcome State Fault Refusal :=
  .next (s.respond (.value ((bct v).setWidth 16)))

/-- `ENC8 b` (R84). -/
def execEnc8 (b : Byte) (s : State) : Host.Outcome State Fault Refusal :=
  .next (s.respond (.value (packPair (encByte b))))

end Sys2Proof.Machine
end

