-- ==== Sys2Proof/Machine/Configuration.lean ====
section
/-! DEFINITION. The configuration commands `WRSID`, `WRCTL`, `START` (44_config_access.md). Every check comes
before every write (60_exceptions.md R168, R169). -/

namespace Sys2Proof.Machine

/-- The byte `#` that an identity must not hold (00_scope.md R8; R152; PRESUMED, log 10). -/
def hashByte : Byte := 0x23

/-- Does the identity hold the byte 0x23? (R152) -/
def State.sidHoldsHash (s : State) : Bool := s.sid.toList.any (fun b => b == hashByte)

/-- `WRSID k, d` (R150). -/
def execWrsid (k : BitVec 5) (d : Byte) (s : State) : Host.Outcome State Fault Refusal :=
  if s.phase = .config then
    .next ({ s with sid := s.sid.set k.toNat d k.isLt }.respond .done)
  else .next (s.raise .seqErr)

/-- `WRCTL layout, ie` (R151). -/
def execWrctl (layout : Layout) (ie : Bool) (s : State) : Host.Outcome State Fault Refusal :=
  if s.phase = .config then
    .next ({ s with ie := ie, layout := layout }.respond .done)
  else .next (s.raise .seqErr)

/-- `START` (R152). -/
def execStart (s : State) : Host.Outcome State Fault Refusal :=
  if s.phase = .config then
    if s.sidHoldsHash then .next (s.raise .cfgErr)
    else .next ({ s with phase := .run }.respond .done)
  else .next (s.raise .seqErr)

end Sys2Proof.Machine
end

