-- ==== Sys2Proof/Machine/Registers.lean ====
section
/-! DEFINITION. The read port: `RDREG` (44_config_access.md R153). -/

namespace Sys2Proof.Machine

/-- `RDREG a` (R153): accepted in every phase; an unmapped number raises `ADDR_ERR`. -/
def execRdreg (a : Byte) (s : State) : Host.Outcome State Fault Refusal :=
  match Reg.ofNumber a with
  | none => .next (s.raise .addrErr)
  | some r => .next (s.respond (.value ((s.readReg r).setWidth 16)))

end Sys2Proof.Machine
end

