-- ==== Sys2Proof/Machine/Cycle.lean ====
section
/-! DEFINITION. The unit `ControlMessageCycle` (41_control_message_cycle.md): the three templates, the
checksum, `GenMsg` and `NextByte`. -/

namespace Sys2Proof.Machine

/-- STX (00_scope.md R8). -/
def stx : Byte := 0x02

/-- ETX (00_scope.md R8). -/
def etx : Byte := 0x03

/-- The bytes of a message from STX through the last payload byte (R92, R93, R94). -/
def templateBody (t : Template) (sid : Vector Byte 32) (layout : Layout) : List Byte :=
  match t with
  | .a => [stx, 0x11, 0x04]
  | .b => [stx, 0x14, 0x45, 0x31, 0x43, 0x32, 0x30, 0x41, modeChar layout, 0x32]
  | .c => [stx, 0x16] ++ sid.toList ++ [0x23]

/-- `CK_START` as an index (R95). -/
def ckIndex : CkStart → Nat
  | .typeByte => 1
  | .payload => 2

/-- The sum of `byte & 0x7F` over a list of bytes, not reduced (R95). -/
def lowBitsSum (bs : List Byte) : Nat := (bs.map (fun b => (b &&& 0x7F).toNat)).sum

/-- `Checksum(body)` (R95). -/
def checksum (ck : CkStart) (body : List Byte) : Byte :=
  BitVec.ofNat 8 (lowBitsSum (body.drop (ckIndex ck)) % 256)

/-- `HexDigit(x)` (R96; the case of the letters is `HEX_UPPER`, 93_implementation_defined.md U6). -/
def hexDigit (upper : Bool) (x : BitVec 4) : Byte :=
  if x.toNat ≤ 9 then BitVec.ofNat 8 (0x30 + x.toNat)
  else BitVec.ofNat 8 ((if upper then 0x41 else 0x61) + (x.toNat - 10))

/-- A whole message: the body, the two checksum digits with the low nibble first, ETX (R91, R97). -/
def message (p : Params) (body : List Byte) : List Byte :=
  let ck := checksum p.ckStart body
  body ++ [hexDigit p.hexUpper (ck.extractLsb' 0 4), hexDigit p.hexUpper (ck.extractLsb' 4 4), etx]

/-- The buffer that holds a message: all 40 bytes, zero beyond the message (R97). No message has more than
38 bytes (R99). -/
@[irreducible] def msgBuffer (m : List Byte) : Vector Byte 40 :=
  ⟨((m ++ List.replicate 40 0).take 40).toArray, by simp⟩

/-- `(ROT + 1) mod 3` (R97). -/
def Template.succ : Template → Template
  | .a => .b
  | .b => .c
  | .c => .a

/-- The message `GenMsg` builds in a state (R97). -/
def State.nextMessage (s : State) : List Byte := message s.par (templateBody s.rot s.sid s.layout)

/-- `GenMsg()` (R97). -/
def State.genMsg (s : State) : State :=
  { s with
    msg := msgBuffer s.nextMessage
    mlen := BitVec.ofNat 6 s.nextMessage.length
    cur := 0
    rot := s.rot.succ }

/-- The state in which `NextByte` reads its byte: a new message is generated when the cursor is one past the
end of the present one (R98). -/
def State.refill (s : State) : State := if s.cur = s.mlen then s.genMsg else s

/-- `NextByte()` (R98): the byte at the cursor, and the state with the cursor advanced. -/
def State.nextByte (s : State) : Except Fault (Byte × State) :=
  match s.refill.msg[s.refill.cur.toNat]? with
  | none => .error .cursorPastBuffer
  | some b => .ok (b, { s.refill with cur := s.refill.cur + 1 })

end Sys2Proof.Machine
end

