-- ==== Sys2Proof/Machine/Ancillary.lean ====
section
/-! DEFINITION. The unit `AncillaryFrameBuilder` (42_ancillary_builder.md): `BuildAnc`, `Expand`,
`Interleave`, `Insert`. -/

namespace Sys2Proof.Machine

/-- `ANC_OFF` (00_scope.md R4): where the ancillary region of a frame starts. -/
def ancOff : Nat := 0x21C

/-- `GAP_IDX` (00_scope.md R4): the region byte index from which the gap is skipped. -/
def gapIdx : Nat := 30

/-- `GAP_LEN` (00_scope.md R4): the bytes of the gap. -/
def gapLen : Nat := 4

/-- `NBITS` (00_scope.md R4): the interleaved bits of a frame. -/
def nBits : Nat := 252

/-- `BuildAnc()` (R110): three calls of `NextByte`, in order, each byte with its flag. -/
def State.buildAnc (s : State) : Except Fault State :=
  match s.nextByte with
  | .error e => .error e
  | .ok (b15, s1) =>
    match s1.nextByte with
    | .error e => .error e
    | .ok (b16, s2) =>
      match s2.nextByte with
      | .error e => .error e
      | .ok (b17, s3) =>
        .ok { s3 with
          anc15 := withFlag s3.par.bit7 flagSkp b15
          anc16 := withFlag s3.par.bit7 flagRdsc b16
          anc17 := withFlag s3.par.bit7 s3.flagIp b17 }

/-- Codeword `i` of the ancillary array (R112): the low nibble of byte `i div 2` for even `i`, its high
nibble for odd `i`. -/
def State.codewordOf (s : State) (i : Nat) : Codeword :=
  if i % 2 = 0 then (encByte (s.ancByte (i / 2))).1 else (encByte (s.ancByte (i / 2))).2

/-- The 36 codewords of the ancillary array (R112). -/
@[irreducible] def State.codewords (s : State) : Vector Codeword 36 := Vector.ofFn (fun i => s.codewordOf i)

/-- `Expand()` (R112). -/
def State.expand (s : State) : State := { s with cw := s.codewords }

/-- Stream bit `i`: bit `i div 36` of `CW[i mod 36]` (R113, 20_memory.md R44). -/
def streamBit (cw : Vector Codeword 36) (i : Nat) : Bool :=
  (cw[i % 36]'(Nat.mod_lt i (by decide))).getLsbD (i / 36)

/-- The offset in the frame of stream bit `i`: region byte `i div 8`, moved past the gap (R113). -/
def bitOffset (i : Nat) : Nat := ancOff + (if gapIdx ≤ i / 8 then i / 8 + gapLen else i / 8)

/-- The bit position of stream bit `i` in its byte: most significant bit first (R113, 20_memory.md R43). -/
def bitPos (i : Nat) : Nat := 7 - i % 8

/-- Write the stream bits of the listed indices, in order, into a slot of `f` bytes (R113). -/
def writeStream (f : Nat) (cw : Vector Codeword 36) : List Nat → Memory → Except Fault Memory
  | [], m => .ok m
  | i :: is, m =>
    match m.writeBit f (bitOffset i) (bitPos i) (streamBit cw i) with
    | .error e => .error e
    | .ok m' => writeStream f cw is m'

/-- The 252 stream bits written into the cells of a slot, in ascending order (R113). Every stream bit lies at
offset `ANC_OFF` or above (20_memory.md R41), so the cells below it are set aside meanwhile
(DEDUCED, log 12). -/
def interleaveCells (f : Nat) (cw : Vector Codeword 36) (m : Memory) : Except Fault Memory :=
  match writeStream f cw (List.range nBits) (m.onward ancOff) with
  | .error e => .error e
  | .ok hi => .ok (m.before ancOff ++ hi)

/-- `Interleave(i)` (R113). -/
def State.interleave (s : State) (i : SlotId) : Except Fault State :=
  match interleaveCells s.fBytes s.cw (s.slot i) with
  | .error e => .error e
  | .ok m => .ok (s.setSlot i m)

/-- `Insert(i)` (R115). -/
def State.insertAnc (s : State) (i : SlotId) : Except Fault State :=
  match s.buildAnc with
  | .error e => .error e
  | .ok s1 => s1.expand.interleave i

end Sys2Proof.Machine
end

