-- ==== Sys2Proof/Machine/Scheduler.lean ====
section
/-! DEFINITION. The unit `FrameScheduler` (43_frame_scheduler.md): `BuildFrame` and the commands `PRODUCE` and
`EOS`. -/

namespace Sys2Proof.Machine

/-- The offset of the gap that holds the integrity field (20_memory.md R41, R133). -/
def gapOff : Nat := 0x23A

/-- The slot of the frame being built: `FC mod 2` (R130). -/
def State.currentSlot (s : State) : SlotId := SlotId.ofCounter s.fc

/-- The slot of the frame built before it (R130). -/
def State.previousSlot (s : State) : SlotId := s.currentSlot.other

/-- `FC <- FC + 1` (R131 step 5). -/
def State.countFrame (s : State) : State := { s with fc := s.fc + 1 }

/-- Steps (1) and (2) of `BuildFrame` (R131): load the current slot whole, then insert the ancillary bits. -/
def State.loadAndInsert (s : State) (fin : List Byte) : Except Fault State :=
  match s.memWrite s.currentSlot 0 fin with
  | .error e => .error e
  | .ok s1 => s1.insertAnc s.currentSlot

/-- Steps (3a) to (4) of `BuildFrame` (R131, R133): the frame just built is emitted at once, or the previous
slot is stamped and, once there is a previous frame, emitted. -/
def State.stampAndEmit (s : State) (scf : Vector Byte 4) : Except Fault (Option Frame × State) :=
  if s.ie then
    match s.memWrite s.previousSlot gapOff scf.toList with
    | .error e => .error e
    | .ok s1 =>
      if s1.fc = 0 then .ok (none, s1)
      else
        match s1.memRead s1.previousSlot 0 s1.fBytes with
        | .error e => .error e
        | .ok out => .ok (some out, s1)
  else
    match s.memRead s.currentSlot 0 s.fBytes with
    | .error e => .error e
    | .ok out => .ok (some out, s)

/-- `BuildFrame(fin, scf)` (R131). -/
def State.buildFrame (s : State) (fin : List Byte) (scf : Vector Byte 4) :
    Except Fault (Option Frame × State) :=
  match s.loadAndInsert fin with
  | .error e => .error e
  | .ok s1 =>
    match s1.stampAndEmit scf with
    | .error e => .error e
    | .ok (out, s2) => .ok (out, s2.countFrame)

/-- `PRODUCE` (R132). -/
def execProduce (s : State) : Host.Outcome State Fault Refusal :=
  if s.phase = .run then
    if s.fin.length = 0 then .next (s.respond .done)
    else if s.fin.length = s.fBytes then
      match s.buildFrame s.fin s.scf with
      | .error e => .fault e
      | .ok (out, t) => .next (t.respond (.frame out))
    else .next (s.raise .lenErr)
  else .next (s.raise .seqErr)

/-- `EOS` (R134). -/
def execEos (s : State) : Host.Outcome State Fault Refusal :=
  if s.phase = .run then
    if s.fin.length = 0 then .next ({ s with phase := .done }.respond .done)
    else if s.fin.length = s.fBytes then
      match s.buildFrame s.fin s.scf with
      | .error e => .fault e
      | .ok (out, t) => .next ({ t with phase := .done }.respond (.frame out))
    else .next (s.raise .lenErr)
  else .next (s.raise .seqErr)

end Sys2Proof.Machine
end

