-- ==== Sys2Proof/Machine/Dispatch.lean ====
section
/-! DEFINITION. One arm per command of Instr, each a direct call of the command's meaning. -/

namespace Sys2Proof.Machine

def exec (i : Instr) (s : State) : Host.Outcome State Fault Refusal :=
  match i with
  | .wrsid k d => Sys2Proof.Machine.execWrsid k d s
  | .wrctl layout ie => Sys2Proof.Machine.execWrctl layout ie s
  | .start => Sys2Proof.Machine.execStart s
  | .produce => Sys2Proof.Machine.execProduce s
  | .eos => Sys2Proof.Machine.execEos s
  | .rdreg a => Sys2Proof.Machine.execRdreg a s
  | .enc4 v => Sys2Proof.Machine.execEnc4 v s
  | .enc8 b => Sys2Proof.Machine.execEnc8 b s

end Sys2Proof.Machine
end

