-- ==== Sys2Proof/Machine/Step.lean ====
section
/-! DEFINITION. One step of the machine: one event of the host (00_scope.md R5). -/

namespace Sys2Proof.Machine

/-- One step: the event the host presents is executed to completion. A command word is decoded first (30_encoding.md
R70, 60_exceptions.md R169); a word that is no command raises `ILLEGAL_CMD` in every phase (R65); `rst` resets
(70_reset_and_hazards.md R185). With no event presented the block waits and nothing changes (DESIGN CHOICE, log 2). -/
def step (s : State) : Host.Outcome State Fault Refusal :=
  match s.presented with
  | none => .next s
  | some .rst => .next s.applyReset
  | some (.command w _ _) =>
    match decode w with
    | .ok i => exec i s
    | .error _ => .next (s.raise .illegalCmd)

/-- `s` with the command word whose bits are `w` presented to the block, in place of the event presented
before; its side-band operands are those presented before, or none (log 4). A word has 20 bits. -/
def State.withFetchWord (s : State) (nbits w : Nat) : State :=
  s.present (BitVec.ofNat 20 (w % 2 ^ nbits))

end Sys2Proof.Machine
end

