-- ==== Sys2Proof/Safety.lean ====
section
/-! DEFINITION. The terms the statements use: where each bit of a frame comes from (42_ancillary_builder.md
R114), where the message cycle stands after a number of frames (41_control_message_cycle.md R100), what holds
in every state that commands reach (10_state.md R26), and what has been emitted (43_frame_scheduler.md R135,
R136). -/

namespace Sys2Proof.Machine

/-! ## Frames, bit by bit -/

/-- The stream bit that lands at bit position `p` (0 to 7) of frame offset `o`, if one does: R114 and the map
of 20_memory.md R41, read from the frame's side. -/
def streamIndexAt (o p : Nat) : Option Nat :=
  if 0x21C ≤ o ∧ o < 0x23A then some (8 * (o - 0x21C) + (7 - p))
  else if o = 0x23E then some (240 + (7 - p))
  else if o = 0x23F ∧ 4 ≤ p then some (248 + (7 - p))
  else none

/-- The byte `v` of the encoder's frame at offset `o`, with the stream bits of `cw` inserted. -/
abbrev InsertedByte (cw : Vector Codeword 36) (o : Nat) (v w : Byte) : Prop :=
  ∀ p < 8, w.getLsbD p = match streamIndexAt o p with
    | some i => streamBit cw i
    | none => v.getLsbD p

/-- `out` is the frame `fin` with the 252 ancillary bits of `cw` and nothing else changed (R113, R116). -/
abbrev InsertedFrame (cw : Vector Codeword 36) (fin out : Frame) : Prop :=
  out.length = fin.length ∧
    ∀ o < fin.length, InsertedByte cw o (fin.getD o 0) (out.getD o 0)

/-- `out` is the frame `f` with the four bytes of the gap replaced by `scf` and nothing else changed
(43_frame_scheduler.md R133). -/
abbrev StampedFrame (scf : Vector Byte 4) (f out : Frame) : Prop :=
  out.length = f.length ∧
    ∀ o < f.length, out.getD o 0 =
      if 0x23A ≤ o ∧ o < 0x23E then scf.toList.getD (o - 0x23A) 0 else f.getD o 0

/-- A slot of `f` bytes all of which hold a value. -/
abbrev Memory.full (f : Nat) (m : Memory) : Prop := ∀ o < f, (m.byte? o).isSome = true

/-- A slot that holds exactly the bytes of a frame. -/
abbrev Memory.holds (m : Memory) (f : Frame) : Prop := ∀ o < f.length, m.byte? o = some (f.getD o 0)

/-! ## The message cycle -/

/-- The template before one in the rotation: the one the present message was built from (10_state.md R20). -/
def Template.pred : Template → Template
  | .a => .c
  | .b => .a
  | .c => .b

/-- `ROT`, `CUR`, `MLEN` after `n` built frames (R100). -/
def cyclePosition : Nat → Template × Nat × Nat
  | 0 => (.a, 0, 0)
  | n + 1 =>
    if n % 19 < 2 then (.b, 3 * (n % 19 + 1), 6)
    else if n % 19 < 6 then (.c, 3 * (n % 19 + 1) - 6, 13)
    else (.a, 3 * (n % 19 + 1) - 19, 38)

/-- The 57 bytes of a full rotation: template A, then B, then C (R100). -/
def cycleBytes (p : Params) (sid : Vector Byte 32) (layout : Layout) : List Byte :=
  message p (templateBody .a sid layout) ++ message p (templateBody .b sid layout) ++
    message p (templateBody .c sid layout)

/-- The bytes that `n` calls of `NextByte` return, and the state after them (R98). -/
def nextBytes : Nat → State → Except Fault (List Byte × State)
  | 0, s => .ok ([], s)
  | n + 1, s =>
    match s.nextByte with
    | .error e => .error e
    | .ok (b, s1) =>
      match nextBytes n s1 with
      | .error e => .error e
      | .ok (bs, t) => .ok (b :: bs, t)

/-- The value of an ASCII hex digit of either case (41_control_message_cycle.md R96). -/
def hexValue (b : Byte) : Nat :=
  if b.toNat ≤ 0x39 then b.toNat - 0x30
  else if b.toNat ≤ 0x46 then b.toNat - 0x41 + 10
  else b.toNat - 0x61 + 10

/-! ## What holds in every reachable state -/

/-- R26 (a): `CUR <= MLEN <= 38`. -/
abbrev State.CursorInRange (s : State) : Prop := s.cur.toNat ≤ s.mlen.toNat ∧ s.mlen.toNat ≤ 38

/-- R26 (b): what `MLEN` says of `ROT`, `CUR`, `FC`. -/
abbrev State.LengthNamesTemplate (s : State) : Prop :=
  (s.mlen = 0 ∧ s.rot = .a ∧ s.cur = 0 ∧ s.fc = 0) ∨ (s.mlen = 6 ∧ s.rot = .b) ∨
    (s.mlen = 13 ∧ s.rot = .c) ∨ (s.mlen = 38 ∧ s.rot = .a)

/-- R26 (c): the first thirty codewords are 0. (`ANC[0..14]` is 0 by construction.) -/
abbrev State.LowCodewordsZero (s : State) : Prop := ∀ i : Fin 30, s.cw[i.val] = 0

/-- R26 (d): the codewords are those of the ancillary bytes, low nibble first. -/
abbrev State.CodewordsOfAnc (s : State) : Prop :=
  ∀ k : Fin 18, s.cw[2 * k.val] = bct (lowNibble (s.ancByte k)) ∧
    s.cw[2 * k.val + 1] = bct (highNibble (s.ancByte k))

/-- R26 (e): the flag bits, under `BIT7_MODE` = `replace`. -/
abbrev State.FlagBits (s : State) : Prop :=
  s.par.bit7 = .replaceBit →
    s.anc15.getLsbD 7 = false ∧ s.anc16.getLsbD 7 = false ∧ (0 < s.fc → s.anc17.getLsbD 7 = s.ie)

/-- R26 (f) with R100: the cycle stands where `3 * FC` calls of `NextByte` leave it. -/
abbrev State.CycleAtFrameCount (s : State) : Prop :=
  (s.rot, s.cur.toNat, s.mlen.toNat) = cyclePosition s.fc

/-- R26 (g): nothing has been built in phase CONFIG. -/
abbrev State.ConfigIsFresh (s : State) : Prop := s.phase = .config → s.fc = 0 ∧ s.mlen = 0

/-- R26 (h): the last built frame's slot holds a value in every byte, and with two frames built both do. -/
abbrev State.SlotsLoaded (s : State) : Prop :=
  (0 < s.fc → Memory.full s.fBytes (s.slot (SlotId.ofCounter (s.fc - 1)))) ∧
    (1 < s.fc → Memory.full s.fBytes s.slot0 ∧ Memory.full s.fBytes s.slot1)

/-- Both slots are in canonical form and hold no byte beyond their length. -/
abbrev State.SlotsCanonical (s : State) : Prop :=
  (s.slot0.wf = true ∧ s.slot0.within s.fBytes = true) ∧ (s.slot1.wf = true ∧ s.slot1.within s.fBytes = true)

/-- R17: the buffer holds the present message, zero beyond it; all zero when none was generated. -/
abbrev State.BufferHoldsMessage (s : State) : Prop :=
  s.msg = if s.mlen = 0 then Vector.replicate 40 0
    else msgBuffer (message s.par (templateBody s.rot.pred s.sid s.layout))

/-- R11, R12: an error code is kept exactly in phase ERROR, and codes 6 and 7 never occur (R166). -/
abbrev State.ErrorRecorded (s : State) : Prop :=
  (s.phase = .error ↔ s.errcode ≠ 0) ∧ s.errcode.toNat ≤ 5

/-- R152, R154: the identity of a run holds no byte 0x23. -/
abbrev State.IdentityChecked (s : State) : Prop :=
  s.phase = .run ∨ s.phase = .done ∨ 0 < s.fc → s.sidHoldsHash = false

/-- The invariant of the block: R26 with the facts it rests on. -/
abbrev State.Inv (s : State) : Prop :=
  s.CursorInRange ∧ s.LengthNamesTemplate ∧ s.LowCodewordsZero ∧ s.CodewordsOfAnc ∧ s.FlagBits ∧
    s.CycleAtFrameCount ∧ s.ConfigIsFresh ∧ s.SlotsLoaded ∧ s.SlotsCanonical ∧ s.BufferHoldsMessage ∧
    s.ErrorRecorded ∧ s.IdentityChecked

/-! ## Commands -/

/-- The matrix of 60_exceptions.md R174: which command each phase accepts. -/
def accepts (p : Phase) (i : Instr) : Bool :=
  match i with
  | .wrsid _ _ => p == .config
  | .wrctl _ _ => p == .config
  | .start => p == .config
  | .produce => p == .run
  | .eos => p == .run
  | .rdreg _ => true
  | .enc4 _ => true
  | .enc8 _ => true

/-- The host presents the command word `w` in state `s`, and the step answers `t`. -/
abbrev CommandStep (s : State) (w : CmdWord) (t : State) : Prop :=
  (∃ fin scf rest, s.pending = .command w fin scf :: rest) ∧ step s = .next t

/-- `RDREG a` answers the value `v`, with no error and no other effect (44_config_access.md R153). -/
abbrev ReadsAs (s : State) (a v : Nat) : Prop :=
  exec (.rdreg (BitVec.ofNat 8 a)) s =
    .next { s with
      pending := s.pending.tail
      responses := s.responses ++ [{ err := 0, data := BitVec.ofNat 16 v, out := none }] }

/-- `t` is `s` after one built frame, but for what building a frame writes: the message cycle, the ancillary
bytes, the codewords and the slots (43_frame_scheduler.md R131). Nothing else of `s` is changed: the phase, the
error code, the identity, `CTRL` and the parameters are those of `s`. -/
abbrev BuildsOneFrame (s t : State) : Prop :=
  t = { s with
    msg := t.msg, mlen := t.mlen, cur := t.cur, rot := t.rot, fc := s.fc + 1
    slot0 := t.slot0, slot1 := t.slot1, anc15 := t.anc15, anc16 := t.anc16, anc17 := t.anc17, cw := t.cw
    pending := s.pending.tail, responses := t.responses }

/-- The number of bit positions in which two codewords differ. -/
def hammingDistance (x y : Codeword) : Nat := ((List.range 7).filter (fun k => x.getLsbD k != y.getLsbD k)).length

/-! ## Runs -/

/-- The frames emitted since reset, oldest first. -/
def State.emitted (s : State) : List Frame := s.responses.filterMap (fun r => r.out)

/-- With the check off every built frame has been emitted, with it on all but the last (R135, R136). -/
abbrev State.EmittedAllDue (s : State) : Prop :=
  s.emitted.length = if s.ie then s.fc - 1 else s.fc

/-- The state of the block agrees, whatever the host's side holds: every element of 10_state.md R10 is
equal. -/
abbrev SameBlock (s t : State) : Prop :=
  { s with pending := [], responses := [] } = { t with pending := [], responses := [] }

end Sys2Proof.Machine
end

