-- ==== Sys2Proof/Certificates/Slice0/Obligations.lean ====
section
/-! DEFINITION. The statements about the block, each a proposition over the model. None is proved here. -/

open Sys2Proof Sys2Proof.Machine

/-- Nine written-out command words decode to the commands the spec gives for them. Rests on 95_test_vectors.md
part 2, V1, V2 and V17, 30_encoding.md section 2. -/
def Obligations.SampleWordsDecode : Prop :=
  decode 0x10054 = .ok (.wrsid 0 0x54) ∧ decode 0x11FFF = .ok (.wrsid 31 0xFF) ∧
    decode 0x20005 = .ok (.wrctl .joint true) ∧ decode 0x30000 = .ok .start ∧ decode 0x40000 = .ok .produce ∧
    decode 0x50000 = .ok .eos ∧ decode 0x62100 = .ok (.rdreg 0x21) ∧ decode 0x70009 = .ok (.enc4 9) ∧
    decode 0x80084 = .ok (.enc8 0x84)

/-- A word is a command exactly when its format is kept; any other raises ILLEGAL_CMD and does nothing else.
Formalises R65. -/
def Obligations.IllegalWordsRaiseIllegalCmd : Prop :=
  (∀ w : CmdWord, (∃ i, decode w = .ok i) ↔ w.wellFormed = true) ∧
    (∀ (w : CmdWord) (s : State) (fin : List Byte) (scf : Vector Byte 4) (rest : List HostEvent),
      w.wellFormed = false → s.pending = .command w fin scf :: rest →
      step s = .next { s with
        errcode := if s.phase = .error then s.errcode else 1
        phase := .error
        pending := rest
        responses := s.responses ++ [{ err := 1, data := 0, out := none }] }) ∧
    CmdWord.wellFormed 0x00000 = false ∧ CmdWord.wellFormed 0xFFFFF = false

/-- Decoding the word of any command gives the command back, with every operand. Rests on 30_encoding.md
sections 2 to 4. -/
def Obligations.DecodeOfEncodeIsTheCommand : Prop :=
  ∀ i : Instr, decode (encode i) = .ok i

/-- A word that decodes is the one word of the command it decodes to. Rests on 30_encoding.md sections 2 to 4,
92_eei_decisions.md D2. -/
def Obligations.EncodeOfDecodeIsTheWord : Prop :=
  ∀ (w : CmdWord) (i : Instr), decode w = .ok i → encode i = w

/-- The eight opcode patterns are disjoint. Rests on 30_encoding.md sections 2 and 4. -/
def Obligations.AtMostOneRowTakesAWord : Prop :=
  ∀ w : CmdWord, (opcodeRows.filter (fun r => r.takes w)).length ≤ 1

/-- A step runs the command that the presented word decodes to, on its side-band operands. Rests on 00_scope.md
section 4, 30_encoding.md sections 1 and 4. -/
def Obligations.StepRunsTheDecodedCommand : Prop :=
  ∀ (s : State) (w : CmdWord) (fin : List Byte) (scf : Vector Byte 4) (rest : List HostEvent) (i : Instr),
    s.pending = .command w fin scf :: rest → decode w = .ok i →
      step s = exec i s ∧ s.fin = fin ∧ s.scf = scf

/-- A command whose word is presented is the one that the next step runs. Rests on 30_encoding.md sections 1 and
4. -/
def Obligations.PresentedWordRuns : Prop :=
  ∀ (s : State) (i : Instr) (n : Nat), 20 ≤ n →
    step (s.withFetchWord n (encode i).toNat) = exec i (s.withFetchWord n (encode i).toNat) ∧
      decodeTableWord n (encode i).toNat = some i

/-- A command ends with one response of the required form, and leaves the earlier responses as they are.
Formalises R63. -/
def Obligations.EveryCommandGivesOneResponse : Prop :=
  ∀ (s t : State) (w : CmdWord), CommandStep s w t →
    t.pending = s.pending.tail ∧ ∃ r : Response, t.responses = s.responses ++ [r] ∧ r.err.toNat ≤ 5 ∧
      (r.err ≠ 0 → r.data = 0 ∧ r.out = none) ∧
      (r.data ≠ 0 → ∃ i, decode w = .ok i ∧ ((∃ a, i = .rdreg a) ∨ (∃ v, i = .enc4 v) ∨ ∃ b, i = .enc8 b)) ∧
      ∀ f, r.out = some f → f.length = s.fBytes ∧ (decode w = .ok .produce ∨ decode w = .ok .eos)

/-- The input rst puts every state element at its value of the reset table, and State.reset has them. Formalises
R27. -/
def Obligations.ResetGivesTheTableValues : Prop :=
  let table : State → Prop := fun t =>
    t.phase = .config ∧ t.errcode = 0 ∧ (∀ k : Fin 32, t.sid[k] = 0) ∧ t.ctrlByte = 0 ∧ t.ie = false ∧
      t.layout = .mono ∧ (∀ k : Fin 40, t.msg[k] = 0) ∧ t.mlen = 0 ∧ t.cur = 0 ∧ t.rot.code = 0 ∧ t.fc = 0 ∧
      (∀ i o, t.byteAt i o = none) ∧ (∀ k < 18, t.ancByte k = 0) ∧ ∀ k : Fin 36, t.cw[k] = 0
  table State.reset ∧
    ∀ (s : State) (rest : List HostEvent), s.pending = .rst :: rest → ∃ t, step s = .next t ∧ table t

/-- The input rst keeps the parameters and the further events and clears the record of responses. Rests on
70_reset_and_hazards.md section 1. The model's choices, log 1, 3 and 5. -/
def Obligations.ResetKeepsTheHostSide : Prop :=
  ∀ (s : State) (rest : List HostEvent), s.pending = .rst :: rest →
    ∃ t, step s = .next t ∧ t.par = s.par ∧ t.pending = rest ∧ t.responses = []

/-- With no event pending a step changes nothing. Rests on 00_scope.md section 4. The model's choice, log 2. -/
def Obligations.WaitingChangesNothing : Prop :=
  ∀ s : State, s.pending = [] → step s = .next s

/-- No step changes the parameters of the instance. Rests on 00_scope.md section 3. That the parameters are a
field of State is the model's choice, log 5. -/
def Obligations.ParametersNeverChange : Prop :=
  ∀ s t : State, step s = .next t → t.par = s.par

/-- A command that ends in error changes nothing but PHASE and the first error code. Formalises R168. -/
def Obligations.ErrorsArePrecise : Prop :=
  ∀ (s t : State) (w : CmdWord) (r : Response), CommandStep s w t → t.responses = s.responses ++ [r] →
    r.err ≠ 0 →
      r.err.toNat ≤ 5 ∧ r.data = 0 ∧ r.out = none ∧
        t = { s with
          errcode := if s.phase = .error then s.errcode else r.err
          phase := .error
          pending := s.pending.tail
          responses := s.responses ++ [r] }

/-- Each phase accepts the commands of the matrix, and the phase moves only as the matrix says. Formalises R174. -/
def Obligations.PhaseMatrixAndTransitions : Prop :=
  (∀ (s t : State) (w : CmdWord) (i : Instr) (r : Response), CommandStep s w t → decode w = .ok i →
      t.responses = s.responses ++ [r] → (r.err = Err.seqErr.code ↔ accepts s.phase i = false)) ∧
    (∀ (s t : State) (w : CmdWord) (r : Response), CommandStep s w t → t.responses = s.responses ++ [r] →
      (r.err ≠ 0 → t.phase = .error) ∧
        (r.err = 0 → decode w = .ok .start → s.phase = .config ∧ t.phase = .run) ∧
        (r.err = 0 → decode w = .ok .eos → s.phase = .run ∧ t.phase = .done) ∧
        (r.err = 0 → decode w ≠ .ok .start → decode w ≠ .ok .eos → t.phase = s.phase)) ∧
    ∀ (s t : State) (rest : List HostEvent), s.pending = .rst :: rest → step s = .next t → t.phase = .config

/-- In phase ERROR no command changes any state element; each reports what the rule says. Formalises R170. -/
def Obligations.ErrorPhaseIsLeftByResetOnly : Prop :=
  ∀ s : State, s.phase = .error →
    (∀ (w : CmdWord) (t : State), CommandStep s w t → SameBlock s t) ∧
      (∀ i : Instr, accepts .error i = false → exec i s = .next (s.respond { err := 2, data := 0, out := none })) ∧
      (∀ (w : CmdWord) (fin : List Byte) (scf : Vector Byte 4) (rest : List HostEvent),
        s.pending = .command w fin scf :: rest → w.wellFormed = false →
          step s = .next (s.respond { err := 1, data := 0, out := none })) ∧
      (∀ a : Byte, Reg.ofNumber a = none →
        exec (.rdreg a) s = .next (s.respond { err := 5, data := 0, out := none })) ∧
      (∀ (a : Byte) (r : Reg), Reg.ofNumber a = some r →
        exec (.rdreg a) s = .next (s.respond { err := 0, data := (s.readReg r).setWidth 16, out := none })) ∧
      (∀ v : BitVec 4,
        exec (.enc4 v) s = .next (s.respond { err := 0, data := (bct v).setWidth 16, out := none })) ∧
      (∀ b : Byte, exec (.enc8 b) s = .next (s.respond { err := 0, data := packPair (encByte b), out := none })) ∧
      ∀ rest : List HostEvent, s.pending = .rst :: rest → ∃ t, step s = .next t ∧ t.phase = .config ∧ t.errcode = 0

/-- WRSID writes the one byte in CONFIG, raises SEQ_ERR elsewhere; its word. Formalises R150. -/
def Obligations.WrsidWritesOneByte : Prop :=
  (∀ w : CmdWord, opField w = 1 → ((∃ i, decode w = .ok i) ↔ (aField w).toNat < 32)) ∧
    ∀ (k : BitVec 5) (d : Byte) (s : State),
    encode (.wrsid k d) = 0x10000 ||| (k.setWidth 20 <<< 8) ||| d.setWidth 20 ∧
      (s.phase = .config → exec (.wrsid k d) s = .next { s with
        sid := s.sid.set k.toNat d k.isLt
        pending := s.pending.tail
        responses := s.responses ++ [{ err := 0, data := 0, out := none }] }) ∧
      (s.phase ≠ .config → exec (.wrsid k d) s = .next (s.raise .seqErr))

/-- WRCTL writes IE and LAYOUT in CONFIG, raises SEQ_ERR elsewhere; its word. Formalises R151. -/
def Obligations.WrctlWritesIeAndLayout : Prop :=
  (∀ w : CmdWord, opField w = 2 → ((∃ i, decode w = .ok i) ↔ aField w = 0 ∧ (dField w).toNat < 8)) ∧
    ∀ (layout : Layout) (ie : Bool) (s : State),
    encode (.wrctl layout ie) = 0x20000 ||| (layout.bits.setWidth 20 <<< 1) ||| (BitVec.ofBool ie).setWidth 20 ∧
      (s.phase = .config → ∃ t, exec (.wrctl layout ie) s = .next t ∧
        t = { s with
          ie := ie
          layout := layout
          pending := s.pending.tail
          responses := s.responses ++ [{ err := 0, data := 0, out := none }] } ∧
        t.ctrlByte = (layout.bits.setWidth 8 <<< 1) ||| (BitVec.ofBool ie).setWidth 8) ∧
      (s.phase ≠ .config → exec (.wrctl layout ie) s = .next (s.raise .seqErr))

/-- START enters RUN when the identity holds no 0x23, and raises CFG_ERR or SEQ_ERR otherwise. Formalises R152. -/
def Obligations.StartEndsConfiguration : Prop :=
  encode .start = 0x30000 ∧ (∀ w : CmdWord, opField w = 3 → ((∃ i, decode w = .ok i) ↔ w = 0x30000)) ∧
    ∀ s : State,
    (s.phase = .config → (∀ k : Fin 32, s.sid[k] ≠ 0x23) → exec .start s = .next { s with
        phase := .run
        pending := s.pending.tail
        responses := s.responses ++ [{ err := 0, data := 0, out := none }] }) ∧
      (s.phase = .config → (∃ k : Fin 32, s.sid[k] = 0x23) → exec .start s = .next (s.raise .cfgErr)) ∧
      (s.phase ≠ .config → exec .start s = .next (s.raise .seqErr))

/-- SID and CTRL change only through WRSID and WRCTL in CONFIG. Formalises R154. -/
def Obligations.ConfigurationIsFrozenOutsideConfig : Prop :=
  (∀ (s t : State) (w : CmdWord), CommandStep s w t →
      (t.sid ≠ s.sid → s.phase = .config ∧ ∃ k d, decode w = .ok (.wrsid k d)) ∧
        (t.ie ≠ s.ie ∨ t.layout ≠ s.layout → s.phase = .config ∧ ∃ l e, decode w = .ok (.wrctl l e))) ∧
    ∀ s : State, s.phase ≠ .config →
      (∀ k d, exec (.wrsid k d) s = .next (s.raise .seqErr)) ∧
        ∀ l e, exec (.wrctl l e) s = .next (s.raise .seqErr)

/-- RDREG answers the value of every mapped register, bit by bit, and ADDR_ERR for every unmapped number.
Formalises R153. -/
def Obligations.RdregReadsTheRegisterMap : Prop :=
  (∀ w : CmdWord, opField w = 6 → ((∃ i, decode w = .ok i) ↔ dField w = 0)) ∧
    (∀ a : Byte, encode (.rdreg a) = 0x60000 ||| (a.setWidth 20 <<< 8)) ∧
    ∀ s : State,
    (∀ k : Fin 32, ReadsAs s k s.sid[k].toNat) ∧
      ReadsAs s 0x20 ((if s.ie then 1 else 0) + 2 * s.layout.bits.toNat) ∧
      ReadsAs s 0x21 (s.phase.code.toNat + 4 * s.errcode.toNat + 32 * (s.fc % 2) + (if 0 < s.fc then 64 else 0)) ∧
      ReadsAs s 0x22 s.rot.code.toNat ∧ ReadsAs s 0x23 s.cur.toNat ∧ ReadsAs s 0x24 s.mlen.toNat ∧
      ReadsAs s 0x25 (match s.layout with | .mono => 0x4D | .dual => 0x41 | .joint => 0x53 | .stereo => 0x53) ∧
      (∀ k : Fin 40, ReadsAs s (0x40 + k) s.msg[k].toNat) ∧
      (s.Inv → ∀ k : Fin 40, s.mlen.toNat ≤ k → ReadsAs s (0x40 + k) 0) ∧
      (∀ k < 15, ReadsAs s (0x80 + k) 0) ∧
      ReadsAs s 0x8F s.anc15.toNat ∧ ReadsAs s 0x90 s.anc16.toNat ∧ ReadsAs s 0x91 s.anc17.toNat ∧
      (∀ k : Fin 36, ReadsAs s (0xA0 + k) s.cw[k].toNat) ∧
      ∀ a : Byte,
        (0x26 ≤ a.toNat ∧ a.toNat ≤ 0x3F) ∨ (0x68 ≤ a.toNat ∧ a.toNat ≤ 0x7F) ∨
          (0x92 ≤ a.toNat ∧ a.toNat ≤ 0x9F) ∨ 0xC4 ≤ a.toNat →
        exec (.rdreg a) s = .next (s.raise .addrErr)

/-- ENC4 answers the codeword of the nibble, in every phase, and changes nothing. Formalises R83. -/
def Obligations.Enc4LooksUpTheTable : Prop :=
  (∀ w : CmdWord, opField w = 7 → ((∃ i, decode w = .ok i) ↔ aField w = 0 ∧ (dField w).toNat < 16)) ∧
    ∀ (v : BitVec 4) (s : State),
    encode (.enc4 v) = 0x70000 ||| v.setWidth 20 ∧
      exec (.enc4 v) s = .next { s with
        pending := s.pending.tail
        responses := s.responses ++ [{
          err := 0
          data := [0x00, 0x07, 0x19, 0x1E, 0x2A, 0x2D, 0x33, 0x34, 0x4B, 0x4C, 0x52, 0x55, 0x61, 0x66, 0x78,
            0x7F].getD v.toNat 0
          out := none }] }

/-- ENC8 answers the codewords of both nibbles, low nibble in the low byte, and changes nothing. Formalises R84. -/
def Obligations.Enc8PacksTwoCodewords : Prop :=
  (∀ w : CmdWord, opField w = 8 → ((∃ i, decode w = .ok i) ↔ aField w = 0)) ∧
    ∀ (b : Byte) (s : State),
    encode (.enc8 b) = 0x80000 ||| b.setWidth 20 ∧
      exec (.enc8 b) s = .next { s with
        pending := s.pending.tail
        responses := s.responses ++ [{
          err := 0
          data := BitVec.ofNat 16
            (256 * (bct (BitVec.ofNat 4 (b.toNat / 16))).toNat + (bct (BitVec.ofNat 4 (b.toNat % 16))).toNat)
          out := none }] }

/-- The block code: different codewords, distance 3, linear, systematic, closed under complement. Formalises
R81. -/
def Obligations.BlockCodeProperties : Prop :=
  (∀ u v : BitVec 4, u ≠ v → bct u ≠ bct v ∧ 3 ≤ hammingDistance (bct u) (bct v)) ∧
    (∀ (u v : BitVec 4) (k : Fin 7), u ≠ v →
      hammingDistance (bct v ^^^ BitVec.twoPow 7 k) (bct v) < hammingDistance (bct v ^^^ BitVec.twoPow 7 k) (bct u)) ∧
    (∀ u v : BitVec 4, bct (u ^^^ v) = bct u ^^^ bct v) ∧
    bct 1 = 0x07 ∧ bct 2 = 0x19 ∧ bct 4 = 0x2A ∧ bct 8 = 0x4B ∧
    (∀ v : BitVec 4, v.getLsbD 0 = (bct v).getLsbD 2 ∧ v.getLsbD 1 = (bct v).getLsbD 4 ∧
      v.getLsbD 2 = (bct v).getLsbD 5 ∧ v.getLsbD 3 = (bct v).getLsbD 6) ∧
    ∀ v : BitVec 4, bct (15 - v) = bct v ^^^ 0x7F

/-- Every 7-bit word is within distance 1 of exactly one codeword. Rests on 95_test_vectors.md part 2, V4. -/
def Obligations.BlockCodeIsPerfect : Prop :=
  ∀ w : Codeword, ∃ v : BitVec 4, hammingDistance w (bct v) ≤ 1 ∧
    ∀ u : BitVec 4, hammingDistance w (bct u) ≤ 1 → u = v

/-- GenMsg writes the message of the template that ROT names, its checksum digits and ETX, and moves ROT on.
Formalises R97. -/
def Obligations.GenMsgBuildsTheNextMessage : Prop :=
  ∀ s : State, s.par.isHardware →
    let body : List Byte := match s.rot with
      | .a => [0x02, 0x11, 0x04]
      | .b => [0x02, 0x14, 0x45, 0x31, 0x43, 0x32, 0x30, 0x41, s.modeCh, 0x32]
      | .c => 0x02 :: 0x16 :: (s.sid.toList ++ [0x23])
    let ck : Nat := ((body.drop 1).map (fun b => b.toNat % 128)).sum % 256
    let digit : Nat → Nat := fun x => if x ≤ 9 then 0x30 + x else 0x41 + (x - 10)
    let m : List Nat := body.map BitVec.toNat ++ [digit (ck % 16), digit (ck / 16), 0x03]
    (∀ k : Fin 40, s.genMsg.msg[k].toNat = m.getD k 0) ∧
      s.genMsg = { s with
        msg := s.genMsg.msg
        mlen := BitVec.ofNat 6 (body.length + 3)
        cur := 0
        rot := match s.rot with | .a => .b | .b => .c | .c => .a }

/-- The concrete messages of the spec, and the checksum of template C for every identity. Formalises R102. -/
def Obligations.ConcreteMessagesByConfiguration : Prop :=
  ∀ s : State, s.par.isHardware →
    (s.rot = .a → s.nextMessage = [0x02, 0x11, 0x04, 0x35, 0x31, 0x03]) ∧
      (s.rot = .b → s.layout = .mono →
        s.nextMessage = [0x02, 0x14, 0x45, 0x31, 0x43, 0x32, 0x30, 0x41, 0x4D, 0x32, 0x46, 0x45, 0x03]) ∧
      (s.rot = .b → s.layout = .dual →
        s.nextMessage = [0x02, 0x14, 0x45, 0x31, 0x43, 0x32, 0x30, 0x41, 0x41, 0x32, 0x33, 0x45, 0x03]) ∧
      (s.rot = .b → s.layout = .joint ∨ s.layout = .stereo →
        s.nextMessage = [0x02, 0x14, 0x45, 0x31, 0x43, 0x32, 0x30, 0x41, 0x53, 0x32, 0x35, 0x46, 0x03]) ∧
      (s.rot = .c → s.sid.toList = List.replicate 32 0 →
        s.nextMessage = [0x02, 0x16] ++ List.replicate 32 0 ++ [0x23, 0x39, 0x33, 0x03]) ∧
      (s.rot = .c → s.sid.toList = [0x54, 0x45, 0x53, 0x54] ++ List.replicate 28 0 →
        s.nextMessage = [0x02, 0x16, 0x54, 0x45, 0x53, 0x54] ++ List.replicate 28 0 ++ [0x23, 0x39, 0x37, 0x03]) ∧
      (s.rot = .c → ∃ lo hi : Byte, s.nextMessage = [0x02, 0x16] ++ s.sid.toList ++ [0x23, lo, hi, 0x03] ∧
        hexValue lo + 16 * hexValue hi = (0x39 + (s.sid.toList.map (fun b => b.toNat % 128)).sum) % 256)

/-- The two digits of every generated message give the sum of the low seven bits of what they cover. Rests on
95_test_vectors.md part 1, S4, 41_control_message_cycle.md section 3. -/
def Obligations.ChecksumOfEveryMessageVerifies : Prop :=
  ∀ s : State,
    hexValue (s.nextMessage.getD (s.nextMessage.length - 3) 0) +
        16 * hexValue (s.nextMessage.getD (s.nextMessage.length - 2) 0) =
      (((s.nextMessage.take (s.nextMessage.length - 3)).drop (ckIndex s.par.ckStart)).map
        (fun b => b.toNat % 128)).sum % 256

/-- Bodies that differ only in bit 7 of some bytes have the same checksum. Rests on 41_control_message_cycle.md
section 3. -/
def Obligations.ChecksumIgnoresBitSeven : Prop :=
  ∀ (ck : CkStart) (x y : List Byte), x.length = y.length →
    (∀ j < x.length, ∀ p < 7, (x.getD j 0).getLsbD p = (y.getD j 0).getLsbD p) → checksum ck x = checksum ck y

/-- NextByte answers the byte at the cursor, generating the next message when the cursor is at the end.
Formalises R98. -/
def Obligations.NextByteReadsAtTheCursor : Prop :=
  (∀ s : State, s.CursorInRange → ∃ b t, s.nextByte = .ok (b, t) ∧
      (s.cur ≠ s.mlen → s.msg[s.cur.toNat]? = some b ∧ t = { s with cur := s.cur + 1 }) ∧
      (s.cur = s.mlen → b = 0x02 ∧ t = { s.genMsg with cur := 1 }) ∧
      1 ≤ t.cur.toNat ∧ t.cur.toNat ≤ t.mlen.toNat) ∧
    (∀ s : State, s.CursorInRange → s.LengthNamesTemplate → s.BufferHoldsMessage →
      s.cur.toNat + 1 = s.mlen.toNat → s.nextByte = .ok (0x03, { s with cur := s.mlen })) ∧
    (nextBytes 7 State.reset).map Prod.fst = .ok [0x02, 0x11, 0x04, 0x35, 0x31, 0x03, 0x02] ∧
    (nextBytes 6 State.reset).map (fun r => r.2.rot) = .ok .b ∧
    (nextBytes 7 State.reset).map (fun r => r.2.rot) = .ok .c

/-- BuildAnc puts three message bytes in ANC[15..17], bit 7 replaced by 0, 0 and IE. Formalises R110. -/
def Obligations.BuildAncTakesThreeBytes : Prop :=
  ∀ (s s1 s2 s3 : State) (b15 b16 b17 : Byte), s.par.bit7 = .replaceBit → s.nextByte = .ok (b15, s1) →
    s1.nextByte = .ok (b16, s2) → s2.nextByte = .ok (b17, s3) →
      ∃ t, s.buildAnc = .ok t ∧ t.anc15.toNat = b15.toNat % 128 ∧ t.anc16.toNat = b16.toNat % 128 ∧
        t.anc17.toNat = b17.toNat % 128 + (if s.ie then 128 else 0) ∧ (∀ k < 15, t.ancByte k = 0) ∧
        t = { s3 with anc15 := t.anc15, anc16 := t.anc16, anc17 := t.anc17 }

/-- Expand writes the codeword of every nibble, low nibble first, and only the codeword file. Formalises R112. -/
def Obligations.ExpandEncodesEveryNibble : Prop :=
  ∀ s : State, s.expand = { s with cw := s.expand.cw } ∧
    (∀ k : Fin 18,
      s.expand.cw[2 * k.val] = bct (BitVec.ofNat 4 ((s.ancByte k).toNat % 16)) ∧
        s.expand.cw[2 * k.val + 1] = bct (BitVec.ofNat 4 ((s.ancByte k).toNat / 16))) ∧
    (∀ i : Fin 30, s.expand.cw[i.val] = 0) ∧
    (s.anc17.getLsbD 7 = true → s.expand.cw[35].getLsbD 6 = true ∧
      s.expand.cw[35] ∈ ([0x4B, 0x4C, 0x52, 0x55, 0x61, 0x66, 0x78, 0x7F] : List Codeword)) ∧
    ∀ k : Fin 35, ∀ b : Byte, (∀ p < 7, b.getLsbD p = s.anc17.getLsbD p) →
      { s with anc17 := b }.expand.cw[k.val] = s.expand.cw[k.val]

/-- Interleave puts each of the 252 stream bits in its place, and leaves every other bit of both slots.
Formalises R113. -/
def Obligations.InterleavePlacesEveryStreamBit : Prop :=
  ∀ (s : State) (sl : SlotId), Memory.full s.fBytes (s.slot sl) →
    ∃ m : Memory, s.interleave sl = .ok (s.setSlot sl m) ∧
      (∀ i, ∀ _ : i < 252, ∃ w, m.byte? (0x21C + (if 30 ≤ i / 8 then i / 8 + 4 else i / 8)) = some w ∧
        w.getLsbD (7 - i % 8) = (s.cw[i % 36]'(Nat.mod_lt i (by decide))).getLsbD (i / 36)) ∧
      (∀ o p v w, p < 8 → (s.slot sl).byte? o = some v → m.byte? o = some w →
        (∀ i < 252, ¬ (0x21C + (if 30 ≤ i / 8 then i / 8 + 4 else i / 8) = o ∧ 7 - i % 8 = p)) →
        w.getLsbD p = v.getLsbD p) ∧
      ∀ o, (m.byte? o).isSome = ((s.slot sl).byte? o).isSome

/-- Insert leaves the audio, the gap, the low nibble of 0x23F and the bytes from 0x240 on, and the other slot.
Rests on 42_ancillary_builder.md section 4, 20_memory.md section 2. -/
def Obligations.InsertLeavesTheRestOfTheFrame : Prop :=
  ∀ (s t : State) (sl : SlotId), s.insertAnc sl = .ok t →
    t.slot sl.other = s.slot sl.other ∧
      (∀ o, (t.slot sl).byte? o = none ↔ (s.slot sl).byte? o = none) ∧
      ∀ o v w, (s.slot sl).byte? o = some v → (t.slot sl).byte? o = some w →
        (o < 0x21C ∨ (0x23A ≤ o ∧ o < 0x23E) ∨ 0x240 ≤ o → w = v) ∧
          (o = 0x23F → w.toNat % 16 = v.toNat % 16)

/-- IE reaches nothing of the ancillary data but bit 7 of ANC[17] and the codeword CW[35]. Rests on
43_frame_scheduler.md section 4, 42_ancillary_builder.md section 4. -/
def Obligations.IntegrityFlagReachesOneCodeword : Prop :=
  ∀ (s t u : State) (sl : SlotId) (e : Bool), s.insertAnc sl = .ok t → { s with ie := e }.insertAnc sl = .ok u →
    u.anc15 = t.anc15 ∧ u.anc16 = t.anc16 ∧ (∀ p < 7, u.anc17.getLsbD p = t.anc17.getLsbD p) ∧
      (∀ k : Fin 35, u.cw[k.val] = t.cw[k.val]) ∧
      u.msg = t.msg ∧ u.mlen = t.mlen ∧ u.cur = t.cur ∧ u.rot = t.rot

/-- PRODUCE and EOS with no bytes build nothing; with a wrong length they raise LEN_ERR. Rests on
43_frame_scheduler.md section 3. -/
def Obligations.EmptyAndWrongLengthsBuildNothing : Prop :=
  ∀ s : State,
    (s.phase = .run → s.fin.length = 0 →
      exec .produce s = .next { s with
        pending := s.pending.tail
        responses := s.responses ++ [{ err := 0, data := 0, out := none }] } ∧
      exec .eos s = .next { s with
        phase := .done
        pending := s.pending.tail
        responses := s.responses ++ [{ err := 0, data := 0, out := none }] }) ∧
      (s.phase = .run → s.fin.length ≠ 0 → s.fin.length ≠ s.fBytes →
        exec .produce s = .next (s.raise .lenErr) ∧ exec .eos s = .next (s.raise .lenErr)) ∧
      (s.phase ≠ .run → exec .produce s = .next (s.raise .seqErr) ∧ exec .eos s = .next (s.raise .seqErr))

/-- With IE = 0 PRODUCE and EOS emit the frame they built, equal to the input but for the 252 bits. Formalises
R135. -/
def Obligations.FramesGoOutAtOnceWithoutTheCheck : Prop :=
  ∀ s : State, s.Inv → s.phase = .run → s.ie = false → s.fin.length = s.fBytes →
    ∃ t out, exec .produce s = .next t ∧ exec .eos s = .next { t with phase := .done } ∧
      t.responses = s.responses ++ [{ err := 0, data := 0, out := some out }] ∧
      InsertedFrame t.cw s.fin out ∧ Memory.holds (t.slot s.currentSlot) out ∧
      t.slot s.previousSlot = s.slot s.previousSlot ∧ BuildsOneFrame s t ∧
        (∀ i o, s.fBytes ≤ o → t.byteAt i o = s.byteAt i o)

/-- With IE = 1 and FC = 0 the frame is built and kept, nothing is emitted, and the stamp lands in slot 1. Rests
on 43_frame_scheduler.md sections 2 and 3. -/
def Obligations.TheFirstFrameIsHeldWithTheCheck : Prop :=
  ∀ s : State, s.Inv → s.phase = .run → s.ie = true → s.fc = 0 → s.fin.length = s.fBytes →
    ∃ t held, exec .produce s = .next t ∧ exec .eos s = .next { t with phase := .done } ∧
      t.responses = s.responses ++ [{ err := 0, data := 0, out := none }] ∧
      InsertedFrame t.cw s.fin held ∧ Memory.holds t.slot0 held ∧
      (∀ o, t.byteAt .one o =
        if 0x23A ≤ o ∧ o < 0x23E then some (s.scf.toList.getD (o - 0x23A) 0) else s.byteAt .one o) ∧
      BuildsOneFrame s t ∧
        (∀ i o, s.fBytes ≤ o → t.byteAt i o = s.byteAt i o)

/-- With IE = 1 and FC > 0 the previous frame is emitted with the new integrity field in its gap. Rests on
43_frame_scheduler.md sections 2 and 3. -/
def Obligations.ThePreviousFrameGoesOutStamped : Prop :=
  ∀ s : State, s.Inv → s.phase = .run → s.ie = true → 0 < s.fc → s.fin.length = s.fBytes →
    ∃ t old out held, old.length = s.fBytes ∧ Memory.holds (s.slot s.previousSlot) old ∧
      exec .produce s = .next t ∧ exec .eos s = .next { t with phase := .done } ∧
      t.responses = s.responses ++ [{ err := 0, data := 0, out := some out }] ∧
      StampedFrame s.scf old out ∧ Memory.holds (t.slot s.previousSlot) out ∧
      InsertedFrame t.cw s.fin held ∧ Memory.holds (t.slot s.currentSlot) held ∧ BuildsOneFrame s t ∧
        (∀ i o, s.fBytes ≤ o → t.byteAt i o = s.byteAt i o)

/-- Frame j goes out at the build of frame j + 1, with its own ancillary bits and the integrity field of frame j
+ 1. Rests on 43_frame_scheduler.md section 4. -/
def Obligations.TwoFramesThroughTheDelay : Prop :=
  ∀ (s : State) (w : CmdWord) (x y : Frame) (a b : Vector Byte 4) (rest : List HostEvent),
    s.Inv → s.phase = .run → s.ie = true → x.length = s.fBytes → y.length = s.fBytes →
    w = 0x40000 ∨ w = 0x50000 →
    s.pending = .command 0x40000 x a :: .command w y b :: rest →
    ∃ t u built out, step s = .next t ∧ step t = .next u ∧ InsertedFrame t.cw x built ∧ StampedFrame b built out ∧
      u.responses = t.responses ++ [{ err := 0, data := 0, out := some out }]

/-- With IE = 0 all built frames have been emitted, with IE = 1 all but the last, whatever the host does. Rests
on 43_frame_scheduler.md section 4, 95_test_vectors.md part 1, S5 and S6. -/
def Obligations.EveryFrameDueHasBeenEmitted : Prop :=
  ∀ s t : State, s.Inv → s.EmittedAllDue → step s = .next t → t.EmittedAllDue

/-- Frame n carries bytes 3n, 3n + 1, 3n + 2 of the 57-byte rotation A, B, C. Rests on
41_control_message_cycle.md section 5, 43_frame_scheduler.md section 4. -/
def Obligations.AncillaryBytesFollowTheCycle : Prop :=
  ∀ s : State, s.Inv → s.phase = .run → s.fin.length = s.fBytes →
    ∃ t, exec .produce s = .next t ∧
      t.anc15 = withFlag s.par.bit7 false ((cycleBytes s.par s.sid s.layout).getD (3 * s.fc % 57) 0) ∧
      t.anc16 = withFlag s.par.bit7 false ((cycleBytes s.par s.sid s.layout).getD ((3 * s.fc + 1) % 57) 0) ∧
      t.anc17 = withFlag s.par.bit7 s.ie ((cycleBytes s.par s.sid s.layout).getD ((3 * s.fc + 2) % 57) 0) ∧
      (t.rot, t.cur.toNat, t.mlen.toNat) = cyclePosition (s.fc + 1)

/-- Two instances of one configuration, 19 frames apart, give the same ancillary data. Rests on 10_state.md
section 10, 41_control_message_cycle.md section 5. -/
def Obligations.AncillaryDataRepeatsEvery19Frames : Prop :=
  ∀ s s' : State, s.Inv → s'.Inv → s.phase = .run → s'.phase = .run → s.sid = s'.sid → s.layout = s'.layout →
    s.ie = s'.ie → s.par = s'.par → s.fc % 19 = s'.fc % 19 → s.fin.length = s.fBytes → s'.fin.length = s'.fBytes →
    ∃ t t', exec .produce s = .next t ∧ exec .produce s' = .next t' ∧ t.anc15 = t'.anc15 ∧ t.anc16 = t'.anc16 ∧
      t.anc17 = t'.anc17 ∧ t.cw = t'.cw ∧ t.msg = t'.msg ∧ t.mlen = t'.mlen ∧ t.cur = t'.cur ∧ t.rot = t'.rot

/-- The bytes of a frame, the integrity field and the slots reach neither the cycle nor the ancillary data.
Rests on 42_ancillary_builder.md section 4. -/
def Obligations.AudioDoesNotSteerTheBlock : Prop :=
  ∀ s s' : State, s.Inv → s'.Inv → s.phase = .run → s.fin.length = s.fBytes → s'.fin.length = s'.fBytes →
    { s with slot0 := [], slot1 := [], pending := [], responses := [] } =
      { s' with slot0 := [], slot1 := [], pending := [], responses := [] } →
    ∃ t t', exec .produce s = .next t ∧ exec .produce s' = .next t' ∧
      { t with slot0 := [], slot1 := [], pending := [], responses := [] } =
        { t' with slot0 := [], slot1 := [], pending := [], responses := [] }

/-- The invariant and the emission count hold right after reset. Rests on 10_state.md sections 7 and 8. -/
def Obligations.InvHoldsAtReset : Prop :=
  State.reset.Inv ∧ State.reset.EmittedAllDue

/-- Every step keeps the invariant of the block. Rests on 10_state.md section 7. -/
def Obligations.InvKeptByEveryStep : Prop :=
  ∀ s t : State, s.Inv → step s = .next t → t.Inv

/-- From a state that meets the invariant every step answers a next state. Rests on 10_state.md section 5,
20_memory.md section 2, 60_exceptions.md section 1. -/
def Obligations.InvStatesNeverStop : Prop :=
  ∀ s : State, s.Inv → ∃ t, step s = .next t

/-- Every step keeps both slots in canonical form and within F_BYTES. Rests on 10_state.md section 5,
20_memory.md sections 1 and 2. The canonical form is the model's representation, log 7. -/
def Obligations.SlotsStayCanonical : Prop :=
  ∀ s t : State, s.SlotsCanonical → step s = .next t → t.SlotsCanonical

/-- The last built frame is whole in its slot, and from two frames on both slots are whole, after every step.
Rests on 10_state.md section 7. -/
def Obligations.LoadedSlotsStayLoaded : Prop :=
  ∀ s t : State, s.SlotsLoaded → step s = .next t → t.SlotsLoaded

/-- After every step the codeword file is the encoding of the ancillary array, its first thirty entries 0. Rests
on 10_state.md section 7. -/
def Obligations.CodewordsStayThoseOfAnc : Prop :=
  ∀ s t : State, s.CodewordsOfAnc → s.LowCodewordsZero → step s = .next t →
    t.CodewordsOfAnc ∧ t.LowCodewordsZero

/-- ROT, CUR and MLEN stay the row of the 19-frame table for FC, after every step. Rests on 10_state.md sections
7 and 10, 41_control_message_cycle.md section 5. -/
def Obligations.CycleStaysAtTheFrameCount : Prop :=
  ∀ s t : State, s.ConfigIsFresh → s.CycleAtFrameCount → step s = .next t → t.ConfigIsFresh ∧ t.CycleAtFrameCount

/-- ERRCODE is 0 exactly outside phase ERROR and never 6 or 7, after every step. Rests on 10_state.md section 2,
60_exceptions.md section 3. -/
def Obligations.ErrorRecordStaysExact : Prop :=
  (∀ s t : State, s.ErrorRecorded → step s = .next t → t.ErrorRecorded) ∧
    ∀ (s t : State) (w : CmdWord), s.phase = .error → CommandStep s w t → t.errcode = s.errcode

/-- Once a run is started its identity holds no byte 0x23, after every step. Rests on 44_config_access.md,
41_control_message_cycle.md section 5. -/
def Obligations.IdentityOfARunHoldsNoHash : Prop :=
  ∀ s t : State, s.ConfigIsFresh → (s.phase = .run ∨ s.phase = .done ∨ 0 < s.fc → ∀ k : Fin 32, s.sid[k] ≠ 0x23) →
    step s = .next t → (t.phase = .run ∨ t.phase = .done ∨ 0 < t.fc → ∀ k : Fin 32, t.sid[k] ≠ 0x23)
end

