-- ==== Sys2Proof/Laws/State.lean ====
section
/-! SUPPORT. One lemma per field for each named update of the state: what the update leaves and what it
writes. -/

namespace Sys2Proof.Machine

/-! ### `State.setSlot` -/

@[simp] theorem State.setSlot_phase (s : State) (i : SlotId) (m : Memory) : (s.setSlot i m).phase = s.phase := by cases i <;> rfl
@[simp] theorem State.setSlot_errcode (s : State) (i : SlotId) (m : Memory) : (s.setSlot i m).errcode = s.errcode := by cases i <;> rfl
@[simp] theorem State.setSlot_sid (s : State) (i : SlotId) (m : Memory) : (s.setSlot i m).sid = s.sid := by cases i <;> rfl
@[simp] theorem State.setSlot_ie (s : State) (i : SlotId) (m : Memory) : (s.setSlot i m).ie = s.ie := by cases i <;> rfl
@[simp] theorem State.setSlot_layout (s : State) (i : SlotId) (m : Memory) : (s.setSlot i m).layout = s.layout := by cases i <;> rfl
@[simp] theorem State.setSlot_msg (s : State) (i : SlotId) (m : Memory) : (s.setSlot i m).msg = s.msg := by cases i <;> rfl
@[simp] theorem State.setSlot_mlen (s : State) (i : SlotId) (m : Memory) : (s.setSlot i m).mlen = s.mlen := by cases i <;> rfl
@[simp] theorem State.setSlot_cur (s : State) (i : SlotId) (m : Memory) : (s.setSlot i m).cur = s.cur := by cases i <;> rfl
@[simp] theorem State.setSlot_rot (s : State) (i : SlotId) (m : Memory) : (s.setSlot i m).rot = s.rot := by cases i <;> rfl
@[simp] theorem State.setSlot_fc (s : State) (i : SlotId) (m : Memory) : (s.setSlot i m).fc = s.fc := by cases i <;> rfl
@[simp] theorem State.setSlot_anc15 (s : State) (i : SlotId) (m : Memory) : (s.setSlot i m).anc15 = s.anc15 := by cases i <;> rfl
@[simp] theorem State.setSlot_anc16 (s : State) (i : SlotId) (m : Memory) : (s.setSlot i m).anc16 = s.anc16 := by cases i <;> rfl
@[simp] theorem State.setSlot_anc17 (s : State) (i : SlotId) (m : Memory) : (s.setSlot i m).anc17 = s.anc17 := by cases i <;> rfl
@[simp] theorem State.setSlot_cw (s : State) (i : SlotId) (m : Memory) : (s.setSlot i m).cw = s.cw := by cases i <;> rfl
@[simp] theorem State.setSlot_par (s : State) (i : SlotId) (m : Memory) : (s.setSlot i m).par = s.par := by cases i <;> rfl
@[simp] theorem State.setSlot_pending (s : State) (i : SlotId) (m : Memory) : (s.setSlot i m).pending = s.pending := by cases i <;> rfl
@[simp] theorem State.setSlot_responses (s : State) (i : SlotId) (m : Memory) : (s.setSlot i m).responses = s.responses := by cases i <;> rfl

/-! ### `State.respond` -/

@[simp] theorem State.respond_phase (s : State) (r : Response) : (s.respond r).phase = s.phase := rfl
@[simp] theorem State.respond_errcode (s : State) (r : Response) : (s.respond r).errcode = s.errcode := rfl
@[simp] theorem State.respond_sid (s : State) (r : Response) : (s.respond r).sid = s.sid := rfl
@[simp] theorem State.respond_ie (s : State) (r : Response) : (s.respond r).ie = s.ie := rfl
@[simp] theorem State.respond_layout (s : State) (r : Response) : (s.respond r).layout = s.layout := rfl
@[simp] theorem State.respond_msg (s : State) (r : Response) : (s.respond r).msg = s.msg := rfl
@[simp] theorem State.respond_mlen (s : State) (r : Response) : (s.respond r).mlen = s.mlen := rfl
@[simp] theorem State.respond_cur (s : State) (r : Response) : (s.respond r).cur = s.cur := rfl
@[simp] theorem State.respond_rot (s : State) (r : Response) : (s.respond r).rot = s.rot := rfl
@[simp] theorem State.respond_fc (s : State) (r : Response) : (s.respond r).fc = s.fc := rfl
@[simp] theorem State.respond_slot0 (s : State) (r : Response) : (s.respond r).slot0 = s.slot0 := rfl
@[simp] theorem State.respond_slot1 (s : State) (r : Response) : (s.respond r).slot1 = s.slot1 := rfl
@[simp] theorem State.respond_anc15 (s : State) (r : Response) : (s.respond r).anc15 = s.anc15 := rfl
@[simp] theorem State.respond_anc16 (s : State) (r : Response) : (s.respond r).anc16 = s.anc16 := rfl
@[simp] theorem State.respond_anc17 (s : State) (r : Response) : (s.respond r).anc17 = s.anc17 := rfl
@[simp] theorem State.respond_cw (s : State) (r : Response) : (s.respond r).cw = s.cw := rfl
@[simp] theorem State.respond_par (s : State) (r : Response) : (s.respond r).par = s.par := rfl
@[simp] theorem State.respond_pending (s : State) (r : Response) : (s.respond r).pending = s.pending.tail := rfl
@[simp] theorem State.respond_responses (s : State) (r : Response) : (s.respond r).responses = s.responses ++ [r] := rfl

/-! ### `State.present` -/

@[simp] theorem State.present_phase (s : State) (w : CmdWord) : (s.present w).phase = s.phase := rfl
@[simp] theorem State.present_errcode (s : State) (w : CmdWord) : (s.present w).errcode = s.errcode := rfl
@[simp] theorem State.present_sid (s : State) (w : CmdWord) : (s.present w).sid = s.sid := rfl
@[simp] theorem State.present_ie (s : State) (w : CmdWord) : (s.present w).ie = s.ie := rfl
@[simp] theorem State.present_layout (s : State) (w : CmdWord) : (s.present w).layout = s.layout := rfl
@[simp] theorem State.present_msg (s : State) (w : CmdWord) : (s.present w).msg = s.msg := rfl
@[simp] theorem State.present_mlen (s : State) (w : CmdWord) : (s.present w).mlen = s.mlen := rfl
@[simp] theorem State.present_cur (s : State) (w : CmdWord) : (s.present w).cur = s.cur := rfl
@[simp] theorem State.present_rot (s : State) (w : CmdWord) : (s.present w).rot = s.rot := rfl
@[simp] theorem State.present_fc (s : State) (w : CmdWord) : (s.present w).fc = s.fc := rfl
@[simp] theorem State.present_slot0 (s : State) (w : CmdWord) : (s.present w).slot0 = s.slot0 := rfl
@[simp] theorem State.present_slot1 (s : State) (w : CmdWord) : (s.present w).slot1 = s.slot1 := rfl
@[simp] theorem State.present_anc15 (s : State) (w : CmdWord) : (s.present w).anc15 = s.anc15 := rfl
@[simp] theorem State.present_anc16 (s : State) (w : CmdWord) : (s.present w).anc16 = s.anc16 := rfl
@[simp] theorem State.present_anc17 (s : State) (w : CmdWord) : (s.present w).anc17 = s.anc17 := rfl
@[simp] theorem State.present_cw (s : State) (w : CmdWord) : (s.present w).cw = s.cw := rfl
@[simp] theorem State.present_par (s : State) (w : CmdWord) : (s.present w).par = s.par := rfl
@[simp] theorem State.present_pending (s : State) (w : CmdWord) : (s.present w).pending = .command w s.fin s.scf :: s.pending.tail := rfl
@[simp] theorem State.present_responses (s : State) (w : CmdWord) : (s.present w).responses = s.responses := rfl

/-! ### `State.recordError` -/

@[simp] theorem State.recordError_sid (s : State) (e : Err) : (s.recordError e).sid = s.sid := by
  unfold State.recordError; split <;> rfl
@[simp] theorem State.recordError_ie (s : State) (e : Err) : (s.recordError e).ie = s.ie := by
  unfold State.recordError; split <;> rfl
@[simp] theorem State.recordError_layout (s : State) (e : Err) : (s.recordError e).layout = s.layout := by
  unfold State.recordError; split <;> rfl
@[simp] theorem State.recordError_msg (s : State) (e : Err) : (s.recordError e).msg = s.msg := by
  unfold State.recordError; split <;> rfl
@[simp] theorem State.recordError_mlen (s : State) (e : Err) : (s.recordError e).mlen = s.mlen := by
  unfold State.recordError; split <;> rfl
@[simp] theorem State.recordError_cur (s : State) (e : Err) : (s.recordError e).cur = s.cur := by
  unfold State.recordError; split <;> rfl
@[simp] theorem State.recordError_rot (s : State) (e : Err) : (s.recordError e).rot = s.rot := by
  unfold State.recordError; split <;> rfl
@[simp] theorem State.recordError_fc (s : State) (e : Err) : (s.recordError e).fc = s.fc := by
  unfold State.recordError; split <;> rfl
@[simp] theorem State.recordError_slot0 (s : State) (e : Err) : (s.recordError e).slot0 = s.slot0 := by
  unfold State.recordError; split <;> rfl
@[simp] theorem State.recordError_slot1 (s : State) (e : Err) : (s.recordError e).slot1 = s.slot1 := by
  unfold State.recordError; split <;> rfl
@[simp] theorem State.recordError_anc15 (s : State) (e : Err) : (s.recordError e).anc15 = s.anc15 := by
  unfold State.recordError; split <;> rfl
@[simp] theorem State.recordError_anc16 (s : State) (e : Err) : (s.recordError e).anc16 = s.anc16 := by
  unfold State.recordError; split <;> rfl
@[simp] theorem State.recordError_anc17 (s : State) (e : Err) : (s.recordError e).anc17 = s.anc17 := by
  unfold State.recordError; split <;> rfl
@[simp] theorem State.recordError_cw (s : State) (e : Err) : (s.recordError e).cw = s.cw := by
  unfold State.recordError; split <;> rfl
@[simp] theorem State.recordError_par (s : State) (e : Err) : (s.recordError e).par = s.par := by
  unfold State.recordError; split <;> rfl
@[simp] theorem State.recordError_pending (s : State) (e : Err) : (s.recordError e).pending = s.pending := by
  unfold State.recordError; split <;> rfl
@[simp] theorem State.recordError_responses (s : State) (e : Err) : (s.recordError e).responses = s.responses := by
  unfold State.recordError; split <;> rfl

/-! ### `State.raise` -/

@[simp] theorem State.raise_sid (s : State) (e : Err) : (s.raise e).sid = s.sid := by
  simp [State.raise]
@[simp] theorem State.raise_ie (s : State) (e : Err) : (s.raise e).ie = s.ie := by
  simp [State.raise]
@[simp] theorem State.raise_layout (s : State) (e : Err) : (s.raise e).layout = s.layout := by
  simp [State.raise]
@[simp] theorem State.raise_msg (s : State) (e : Err) : (s.raise e).msg = s.msg := by
  simp [State.raise]
@[simp] theorem State.raise_mlen (s : State) (e : Err) : (s.raise e).mlen = s.mlen := by
  simp [State.raise]
@[simp] theorem State.raise_cur (s : State) (e : Err) : (s.raise e).cur = s.cur := by
  simp [State.raise]
@[simp] theorem State.raise_rot (s : State) (e : Err) : (s.raise e).rot = s.rot := by
  simp [State.raise]
@[simp] theorem State.raise_fc (s : State) (e : Err) : (s.raise e).fc = s.fc := by
  simp [State.raise]
@[simp] theorem State.raise_slot0 (s : State) (e : Err) : (s.raise e).slot0 = s.slot0 := by
  simp [State.raise]
@[simp] theorem State.raise_slot1 (s : State) (e : Err) : (s.raise e).slot1 = s.slot1 := by
  simp [State.raise]
@[simp] theorem State.raise_anc15 (s : State) (e : Err) : (s.raise e).anc15 = s.anc15 := by
  simp [State.raise]
@[simp] theorem State.raise_anc16 (s : State) (e : Err) : (s.raise e).anc16 = s.anc16 := by
  simp [State.raise]
@[simp] theorem State.raise_anc17 (s : State) (e : Err) : (s.raise e).anc17 = s.anc17 := by
  simp [State.raise]
@[simp] theorem State.raise_cw (s : State) (e : Err) : (s.raise e).cw = s.cw := by
  simp [State.raise]
@[simp] theorem State.raise_par (s : State) (e : Err) : (s.raise e).par = s.par := by
  simp [State.raise]

/-! ### `State.genMsg` -/

@[simp] theorem State.genMsg_phase (s : State) : (s.genMsg).phase = s.phase := by
  simp only [State.genMsg]
@[simp] theorem State.genMsg_errcode (s : State) : (s.genMsg).errcode = s.errcode := by
  simp only [State.genMsg]
@[simp] theorem State.genMsg_sid (s : State) : (s.genMsg).sid = s.sid := by
  simp only [State.genMsg]
@[simp] theorem State.genMsg_ie (s : State) : (s.genMsg).ie = s.ie := by
  simp only [State.genMsg]
@[simp] theorem State.genMsg_layout (s : State) : (s.genMsg).layout = s.layout := by
  simp only [State.genMsg]
@[simp] theorem State.genMsg_msg (s : State) : (s.genMsg).msg = msgBuffer s.nextMessage := by
  simp only [State.genMsg]
theorem State.genMsg_mlen (s : State) : (s.genMsg).mlen = BitVec.ofNat 6 s.nextMessage.length := by
  simp only [State.genMsg]
@[simp] theorem State.genMsg_cur (s : State) : (s.genMsg).cur = 0 := by
  simp only [State.genMsg]
@[simp] theorem State.genMsg_rot (s : State) : (s.genMsg).rot = s.rot.succ := by
  simp only [State.genMsg]
@[simp] theorem State.genMsg_fc (s : State) : (s.genMsg).fc = s.fc := by
  simp only [State.genMsg]
@[simp] theorem State.genMsg_slot0 (s : State) : (s.genMsg).slot0 = s.slot0 := by
  simp only [State.genMsg]
@[simp] theorem State.genMsg_slot1 (s : State) : (s.genMsg).slot1 = s.slot1 := by
  simp only [State.genMsg]
@[simp] theorem State.genMsg_anc15 (s : State) : (s.genMsg).anc15 = s.anc15 := by
  simp only [State.genMsg]
@[simp] theorem State.genMsg_anc16 (s : State) : (s.genMsg).anc16 = s.anc16 := by
  simp only [State.genMsg]
@[simp] theorem State.genMsg_anc17 (s : State) : (s.genMsg).anc17 = s.anc17 := by
  simp only [State.genMsg]
@[simp] theorem State.genMsg_cw (s : State) : (s.genMsg).cw = s.cw := by
  simp only [State.genMsg]
@[simp] theorem State.genMsg_par (s : State) : (s.genMsg).par = s.par := by
  simp only [State.genMsg]
@[simp] theorem State.genMsg_pending (s : State) : (s.genMsg).pending = s.pending := by
  simp only [State.genMsg]
@[simp] theorem State.genMsg_responses (s : State) : (s.genMsg).responses = s.responses := by
  simp only [State.genMsg]

/-! ### `State.expand` -/

@[simp] theorem State.expand_phase (s : State) : (s.expand).phase = s.phase := rfl
@[simp] theorem State.expand_errcode (s : State) : (s.expand).errcode = s.errcode := rfl
@[simp] theorem State.expand_sid (s : State) : (s.expand).sid = s.sid := rfl
@[simp] theorem State.expand_ie (s : State) : (s.expand).ie = s.ie := rfl
@[simp] theorem State.expand_layout (s : State) : (s.expand).layout = s.layout := rfl
@[simp] theorem State.expand_msg (s : State) : (s.expand).msg = s.msg := rfl
@[simp] theorem State.expand_mlen (s : State) : (s.expand).mlen = s.mlen := rfl
@[simp] theorem State.expand_cur (s : State) : (s.expand).cur = s.cur := rfl
@[simp] theorem State.expand_rot (s : State) : (s.expand).rot = s.rot := rfl
@[simp] theorem State.expand_fc (s : State) : (s.expand).fc = s.fc := rfl
@[simp] theorem State.expand_slot0 (s : State) : (s.expand).slot0 = s.slot0 := rfl
@[simp] theorem State.expand_slot1 (s : State) : (s.expand).slot1 = s.slot1 := rfl
@[simp] theorem State.expand_anc15 (s : State) : (s.expand).anc15 = s.anc15 := rfl
@[simp] theorem State.expand_anc16 (s : State) : (s.expand).anc16 = s.anc16 := rfl
@[simp] theorem State.expand_anc17 (s : State) : (s.expand).anc17 = s.anc17 := rfl
@[simp] theorem State.expand_cw (s : State) : (s.expand).cw = s.codewords := rfl
@[simp] theorem State.expand_par (s : State) : (s.expand).par = s.par := rfl
@[simp] theorem State.expand_pending (s : State) : (s.expand).pending = s.pending := rfl
@[simp] theorem State.expand_responses (s : State) : (s.expand).responses = s.responses := rfl

/-! ### `State.countFrame` -/

@[simp] theorem State.countFrame_phase (s : State) : (s.countFrame).phase = s.phase := rfl
@[simp] theorem State.countFrame_errcode (s : State) : (s.countFrame).errcode = s.errcode := rfl
@[simp] theorem State.countFrame_sid (s : State) : (s.countFrame).sid = s.sid := rfl
@[simp] theorem State.countFrame_ie (s : State) : (s.countFrame).ie = s.ie := rfl
@[simp] theorem State.countFrame_layout (s : State) : (s.countFrame).layout = s.layout := rfl
@[simp] theorem State.countFrame_msg (s : State) : (s.countFrame).msg = s.msg := rfl
@[simp] theorem State.countFrame_mlen (s : State) : (s.countFrame).mlen = s.mlen := rfl
@[simp] theorem State.countFrame_cur (s : State) : (s.countFrame).cur = s.cur := rfl
@[simp] theorem State.countFrame_rot (s : State) : (s.countFrame).rot = s.rot := rfl
@[simp] theorem State.countFrame_fc (s : State) : (s.countFrame).fc = s.fc + 1 := rfl
@[simp] theorem State.countFrame_slot0 (s : State) : (s.countFrame).slot0 = s.slot0 := rfl
@[simp] theorem State.countFrame_slot1 (s : State) : (s.countFrame).slot1 = s.slot1 := rfl
@[simp] theorem State.countFrame_anc15 (s : State) : (s.countFrame).anc15 = s.anc15 := rfl
@[simp] theorem State.countFrame_anc16 (s : State) : (s.countFrame).anc16 = s.anc16 := rfl
@[simp] theorem State.countFrame_anc17 (s : State) : (s.countFrame).anc17 = s.anc17 := rfl
@[simp] theorem State.countFrame_cw (s : State) : (s.countFrame).cw = s.cw := rfl
@[simp] theorem State.countFrame_par (s : State) : (s.countFrame).par = s.par := rfl
@[simp] theorem State.countFrame_pending (s : State) : (s.countFrame).pending = s.pending := rfl
@[simp] theorem State.countFrame_responses (s : State) : (s.countFrame).responses = s.responses := rfl

/-! ### Slots through updates -/

@[simp] theorem State.setSlot_slot (s : State) (i : SlotId) (m : Memory) : (s.setSlot i m).slot i = m := by
  cases i <;> rfl

@[simp] theorem State.setSlot_slot_other (s : State) (i : SlotId) (m : Memory) :
    (s.setSlot i m).slot i.other = s.slot i.other := by cases i <;> rfl

theorem State.setSlot_slot_ne (s : State) {i j : SlotId} (h : j ≠ i) (m : Memory) :
    (s.setSlot i m).slot j = s.slot j := by cases i <;> cases j <;> simp_all [State.setSlot, State.slot]

@[simp] theorem SlotId.other_other (i : SlotId) : i.other.other = i := by cases i <;> rfl

@[simp] theorem SlotId.other_ne (i : SlotId) : i.other ≠ i := by cases i <;> decide

@[simp] theorem SlotId.ne_other (i : SlotId) : i ≠ i.other := by cases i <;> decide

/-- The slot of frame `n + 1` is the other one. -/
theorem SlotId.ofCounter_succ (n : Nat) : SlotId.ofCounter (n + 1) = (SlotId.ofCounter n).other := by
  unfold SlotId.ofCounter
  rcases Nat.mod_two_eq_zero_or_one n with h | h
  · have : (n + 1) % 2 = 1 := by omega
    simp [h, this, SlotId.other]
  · have : (n + 1) % 2 = 0 := by omega
    simp [h, this, SlotId.other]

@[simp] theorem State.setSlot_fBytes (s : State) (i : SlotId) (m : Memory) :
    (s.setSlot i m).fBytes = s.fBytes := by simp [State.fBytes]

@[simp] theorem State.respond_fBytes (s : State) (r : Response) : (s.respond r).fBytes = s.fBytes := rfl

@[simp] theorem State.respond_slot (s : State) (r : Response) (i : SlotId) : (s.respond r).slot i = s.slot i := by
  cases i <;> rfl

@[simp] theorem State.countFrame_slot (s : State) (i : SlotId) : s.countFrame.slot i = s.slot i := by
  cases i <;> rfl

@[simp] theorem State.expand_slot (s : State) (i : SlotId) : s.expand.slot i = s.slot i := by
  cases i <;> rfl

@[simp] theorem State.genMsg_slot (s : State) (i : SlotId) : s.genMsg.slot i = s.slot i := by
  cases i <;> simp [State.slot]

@[simp] theorem State.raise_slot (s : State) (e : Err) (i : SlotId) : (s.raise e).slot i = s.slot i := by
  cases i <;> simp [State.slot]

/-! ### Raising an error -/

@[simp] theorem State.recordError_phase (s : State) (e : Err) : (s.recordError e).phase = .error := by
  unfold State.recordError; split <;> simp_all

theorem State.recordError_errcode (s : State) (e : Err) :
    (s.recordError e).errcode = if s.phase = .error then s.errcode else e.code := by
  unfold State.recordError; split <;> rfl

@[simp] theorem State.raise_phase (s : State) (e : Err) : (s.raise e).phase = .error := by simp [State.raise]

theorem State.raise_errcode (s : State) (e : Err) :
    (s.raise e).errcode = if s.phase = .error then s.errcode else e.code := by
  simp [State.raise, State.recordError_errcode]

@[simp] theorem State.raise_pending (s : State) (e : Err) : (s.raise e).pending = s.pending.tail := by
  simp [State.raise]

@[simp] theorem State.raise_responses (s : State) (e : Err) :
    (s.raise e).responses = s.responses ++ [{ err := e.code, data := 0, out := none }] := by
  simp [State.raise]

theorem Err.code_ne_zero (e : Err) : e.code ≠ 0 := by cases e <;> decide

theorem Err.code_le (e : Err) : e.code.toNat ≤ 5 := by cases e <;> decide

/-! ### Reset -/

@[simp] theorem State.applyReset_phase (s : State) : s.applyReset.phase = .config := rfl

@[simp] theorem State.applyReset_par (s : State) : s.applyReset.par = s.par := rfl

@[simp] theorem State.applyReset_pending (s : State) : s.applyReset.pending = s.pending.tail := rfl

@[simp] theorem State.applyReset_responses (s : State) : s.applyReset.responses = [] := rfl

end Sys2Proof.Machine
end

