-- ==== Sys2Proof/Laws/Memory.lean ====
section
/-! SUPPORT. What each slot memory operation can do, said once: the value read at every offset after it, that
it keeps the canonical form, and when it answers. -/

namespace Sys2Proof.Machine

/-! ### The canonical form -/

theorem Memory.rising_iff_pairwise (m : Memory) :
    m.rising = true ↔ m.Pairwise (fun x y => x.1 < y.1) := by
  induction m with
  | nil => simp [Memory.rising]
  | cons c m ih =>
    cases m with
    | nil => simp [Memory.rising]
    | cons d m =>
      obtain ⟨k, v⟩ := c
      obtain ⟨k', v'⟩ := d
      simp only [Memory.rising, Bool.and_eq_true, decide_eq_true_eq, ih]
      rw [List.pairwise_cons (a := (k, v))]
      constructor
      · rintro ⟨hk, hp⟩
        refine ⟨fun x hx => ?_, hp⟩
        rcases List.mem_cons.1 hx with rfl | hx
        · exact hk
        · exact Nat.lt_trans hk ((List.pairwise_cons.1 hp).1 x hx)
      · rintro ⟨hk, hp⟩
        exact ⟨hk (k', v') (by simp), hp⟩

/-- No cell can equal what an unlisted byte reads as, since that is no value. -/
theorem Memory.wf_iff_rising (m : Memory) : m.wf = true ↔ m.rising = true := by
  simp [Memory.wf, Memory.unlisted]

theorem Memory.wf_iff_pairwise (m : Memory) : m.wf = true ↔ m.Pairwise (fun x y => x.1 < y.1) := by
  rw [Memory.wf_iff_rising, Memory.rising_iff_pairwise]

theorem Memory.within_iff (f : Nat) (m : Memory) : m.within f = true ↔ ∀ c ∈ m, c.1 < f := by
  simp [Memory.within]

@[simp] theorem Memory.wf_nil : Memory.wf [] = true := rfl

@[simp] theorem Memory.within_nil (f : Nat) : Memory.within f [] = true := rfl

/-! ### Reading one byte -/

@[simp] theorem Memory.byte?_nil (o : Nat) : Memory.byte? [] o = none := rfl

theorem Memory.byte?_cons (k : Nat) (v : Byte) (m : Memory) (o : Nat) :
    Memory.byte? ((k, v) :: m) o = if k = o then some v else m.byte? o := rfl

theorem Memory.byte?_append (m n : Memory) (o : Nat) :
    Memory.byte? (m ++ n) o = (m.byte? o).or (n.byte? o) := by
  induction m with
  | nil => simp
  | cons c m ih =>
    obtain ⟨k, v⟩ := c
    simp only [List.cons_append, Memory.byte?_cons, ih]
    split <;> simp

theorem Memory.byte?_before (m : Memory) (a o : Nat) :
    (m.before a).byte? o = if o < a then m.byte? o else none := by
  induction m with
  | nil => simp [Memory.before]
  | cons c m ih =>
    obtain ⟨k, v⟩ := c
    unfold Memory.before at ih ⊢
    by_cases hk : k < a
    · rw [List.filter_cons_of_pos (by simpa using hk)]
      simp only [Memory.byte?_cons, ih]
      by_cases hko : k = o
      · subst hko; simp [hk]
      · simp [hko]
    · rw [List.filter_cons_of_neg (by simpa using hk), ih]
      simp only [Memory.byte?_cons]
      by_cases hko : k = o
      · subst hko; simp [hk]
      · simp [hko]

theorem Memory.byte?_onward (m : Memory) (a o : Nat) :
    (m.onward a).byte? o = if a ≤ o then m.byte? o else none := by
  induction m with
  | nil => simp [Memory.onward]
  | cons c m ih =>
    obtain ⟨k, v⟩ := c
    unfold Memory.onward at ih ⊢
    by_cases hk : a ≤ k
    · rw [List.filter_cons_of_pos (by simpa using hk)]
      simp only [Memory.byte?_cons, ih]
      by_cases hko : k = o
      · subst hko; simp [hk]
      · simp [hko]
    · rw [List.filter_cons_of_neg (by simpa using hk), ih]
      simp only [Memory.byte?_cons]
      by_cases hko : k = o
      · subst hko; simp [hk]
      · simp [hko]

/-- Setting aside the cells below an offset and putting them back changes nothing that is read. -/
theorem Memory.byte?_before_append_onward (m : Memory) (a o : Nat) :
    Memory.byte? (m.before a ++ m.onward a) o = m.byte? o := by
  rw [Memory.byte?_append, Memory.byte?_before, Memory.byte?_onward]
  by_cases h : o < a
  · simp [h, Nat.not_le.2 h]
  · simp [h, Nat.not_lt.1 h]

theorem Memory.byte?_cells (a : Nat) (bs : List Byte) (o : Nat) :
    (Memory.cells a bs).byte? o = if a ≤ o then bs[o - a]? else none := by
  induction bs generalizing a with
  | nil => simp [Memory.cells]
  | cons b bs ih =>
    simp only [Memory.cells, Memory.byte?_cons, ih]
    by_cases h : a = o
    · subst h; simp
    · by_cases h' : a ≤ o
      · have e : o - a = (o - (a + 1)) + 1 := by omega
        simp [h, h', show a + 1 ≤ o by omega, e]
      · simp [h, h', show ¬ a + 1 ≤ o by omega]

/-- A byte written reads back; every other byte reads as before. -/
theorem Memory.byte?_put (m : Memory) (a : Nat) (b : Byte) (o : Nat) :
    (m.put a b).byte? o = if o = a then some b else m.byte? o := by
  induction m with
  | nil => simp [Memory.put, Memory.byte?_cons, eq_comm]
  | cons c m ih =>
    obtain ⟨k, v⟩ := c
    simp only [Memory.put]
    split
    · simp [Memory.byte?_cons, eq_comm]
    · split
      · next h =>
        subst h
        simp only [Memory.byte?_cons, eq_comm (a := o)]
        split <;> rfl
      · next h1 h2 =>
        simp only [Memory.byte?_cons, ih]
        by_cases hko : k = o
        · subst hko; rw [if_pos rfl, if_neg (fun h => h2 h.symm), if_pos rfl]
        · simp [hko]

/-- Bytes written in a row read back; every byte outside them reads as before. -/
theorem Memory.byte?_putAll (m : Memory) (a : Nat) (bs : List Byte) (o : Nat) :
    (m.putAll a bs).byte? o =
      if a ≤ o ∧ o < a + bs.length then bs[o - a]? else m.byte? o := by
  simp only [Memory.putAll, Memory.byte?_append, Memory.byte?_before, Memory.byte?_onward,
    Memory.byte?_cells]
  by_cases h1 : o < a
  · simp [h1, Nat.not_le.2 h1, show ¬ a + bs.length ≤ o by omega]
  · have h1' : a ≤ o := Nat.not_lt.1 h1
    by_cases h2 : o < a + bs.length
    · simp [h1, h1', h2, Nat.not_le.2 h2]
    · have : bs[o - a]? = none := List.getElem?_eq_none (by omega)
      simp [h1, h1', h2, Nat.not_lt.1 h2, this]

/-! ### The canonical form is kept -/

theorem Memory.mem_cells {a : Nat} {bs : List Byte} {c : Host.Cell} (h : c ∈ Memory.cells a bs) :
    a ≤ c.1 ∧ c.1 < a + bs.length := by
  induction bs generalizing a with
  | nil => simp [Memory.cells] at h
  | cons b bs ih =>
    rcases List.mem_cons.1 h with rfl | h
    · simp
    · have := ih h
      simp only [List.length_cons]
      omega

theorem Memory.cells_pairwise (a : Nat) (bs : List Byte) :
    (Memory.cells a bs).Pairwise (fun x y => x.1 < y.1) := by
  induction bs generalizing a with
  | nil => simp [Memory.cells]
  | cons b bs ih =>
    refine List.pairwise_cons.2 ⟨fun c hc => ?_, ih (a + 1)⟩
    have := Memory.mem_cells hc
    show a < c.1
    omega

theorem Memory.mem_put {m : Memory} {a : Nat} {b : Byte} {c : Host.Cell} (h : c ∈ m.put a b) :
    c = (a, b) ∨ c ∈ m := by
  induction m with
  | nil => simpa [Memory.put] using h
  | cons d m ih =>
    obtain ⟨k, v⟩ := d
    simp only [Memory.put] at h
    split at h
    · simpa using h
    · split at h
      · rcases List.mem_cons.1 h with h | h
        · exact .inl h
        · exact .inr (List.mem_cons_of_mem _ h)
      · rcases List.mem_cons.1 h with h | h
        · exact .inr (by simp [h])
        · rcases ih h with h | h
          · exact .inl h
          · exact .inr (List.mem_cons_of_mem _ h)

theorem Memory.put_wf {m : Memory} (h : m.wf = true) (a : Nat) (b : Byte) : (m.put a b).wf = true := by
  rw [Memory.wf_iff_pairwise] at h ⊢
  induction m with
  | nil => simp [Memory.put]
  | cons d m ih =>
    obtain ⟨k, v⟩ := d
    obtain ⟨hk, hm⟩ := List.pairwise_cons.1 h
    simp only [Memory.put]
    split
    · next hlt =>
      refine List.pairwise_cons.2 ⟨fun c hc => ?_, h⟩
      rcases List.mem_cons.1 hc with rfl | hc
      · exact hlt
      · exact Nat.lt_trans hlt (hk c hc)
    · split
      · next heq => subst heq; exact List.pairwise_cons.2 ⟨hk, hm⟩
      · refine List.pairwise_cons.2 ⟨fun c hc => ?_, ih hm⟩
        rcases Memory.mem_put hc with rfl | hc
        · show k < a
          omega
        · exact hk c hc

theorem Memory.before_wf {m : Memory} (h : m.wf = true) (a : Nat) : (m.before a).wf = true := by
  rw [Memory.wf_iff_pairwise] at h ⊢
  exact h.filter _

theorem Memory.onward_wf {m : Memory} (h : m.wf = true) (a : Nat) : (m.onward a).wf = true := by
  rw [Memory.wf_iff_pairwise] at h ⊢
  exact h.filter _

theorem Memory.mem_before {m : Memory} {a : Nat} {c : Host.Cell} (h : c ∈ m.before a) : c ∈ m ∧ c.1 < a := by
  simpa [Memory.before] using h

theorem Memory.mem_onward {m : Memory} {a : Nat} {c : Host.Cell} (h : c ∈ m.onward a) : c ∈ m ∧ a ≤ c.1 := by
  simpa [Memory.onward] using h

theorem Memory.putAll_wf {m : Memory} (h : m.wf = true) (a : Nat) (bs : List Byte) :
    (m.putAll a bs).wf = true := by
  have hb := (Memory.wf_iff_pairwise _).1 (Memory.before_wf h a)
  have ho := (Memory.wf_iff_pairwise _).1 (Memory.onward_wf h (a + bs.length))
  rw [Memory.wf_iff_pairwise, Memory.putAll]
  refine List.pairwise_append.2 ⟨List.pairwise_append.2 ⟨hb, Memory.cells_pairwise a bs, ?_⟩, ho, ?_⟩
  · intro x hx y hy
    have := (Memory.mem_before hx).2
    have := (Memory.mem_cells hy).1
    omega
  · intro x hx y hy
    have hy := (Memory.mem_onward hy).2
    rcases List.mem_append.1 hx with hx | hx
    · have := (Memory.mem_before hx).2
      omega
    · have := (Memory.mem_cells hx).2
      omega

theorem Memory.put_within {f : Nat} {m : Memory} (h : m.within f = true) {a : Nat} (ha : a < f) (b : Byte) :
    (m.put a b).within f = true := by
  rw [Memory.within_iff] at h ⊢
  intro c hc
  rcases Memory.mem_put hc with rfl | hc
  · exact ha
  · exact h c hc

theorem Memory.putAll_within {f : Nat} {m : Memory} (h : m.within f = true) {a : Nat} {bs : List Byte}
    (ha : a + bs.length ≤ f) : (m.putAll a bs).within f = true := by
  rw [Memory.within_iff] at h ⊢
  intro c hc
  rcases List.mem_append.1 hc with hc | hc
  · rcases List.mem_append.1 hc with hc | hc
    · exact h c (Memory.mem_before hc).1
    · have := (Memory.mem_cells hc).2
      omega
  · exact h c (Memory.mem_onward hc).1

/-! ### Reading a range -/

theorem Memory.byte?_eq_some_of_mem {m : Memory} (h : m.wf = true) {o : Nat} {v : Byte} (hm : (o, v) ∈ m) :
    m.byte? o = some v := by
  rw [Memory.wf_iff_pairwise] at h
  induction m with
  | nil => simp at hm
  | cons d m ih =>
    obtain ⟨k, w⟩ := d
    obtain ⟨hk, hp⟩ := List.pairwise_cons.1 h
    rcases List.mem_cons.1 hm with heq | hm
    · cases heq; simp [Memory.byte?_cons]
    · have hlt : k < o := hk _ hm
      rw [Memory.byte?_cons, if_neg (Nat.ne_of_lt hlt), ih hp hm]

theorem Memory.mem_of_byte?_eq_some {m : Memory} {o : Nat} {v : Byte} (h : m.byte? o = some v) :
    (o, v) ∈ m := by
  induction m with
  | nil => simp at h
  | cons d m ih =>
    obtain ⟨k, w⟩ := d
    simp only [Memory.byte?_cons] at h
    split at h
    · next hk => subst hk; simp_all
    · exact List.mem_cons_of_mem _ (ih h)

/-- Cells whose offsets are `a`, `a + 1`, … read as the bytes they list. -/
theorem Memory.byte?_of_keys (cs : Memory) (a n : Nat) (h : cs.map Prod.fst = List.range' a n) :
    ∀ i < n, cs.byte? (a + i) = (cs.map Prod.snd)[i]? := by
  induction n generalizing a cs with
  | zero => intro i hi; omega
  | succ n ih =>
    cases cs with
    | nil => simp [List.range'_succ] at h
    | cons d cs =>
      obtain ⟨k, v⟩ := d
      simp only [List.map_cons, List.range'_succ, List.cons.injEq] at h
      obtain ⟨hk, h⟩ := h
      have hk : k = a := hk
      subst hk
      intro i hi
      cases i with
      | zero => simp [Memory.byte?_cons]
      | succ i =>
        have := ih cs (k + 1) h i (by omega)
        simp only [Memory.byte?_cons, List.map_cons, List.getElem?_cons_succ]
        rw [if_neg (by omega), ← this]
        congr 1
        omega

/-- What a successful read of a range says of the bytes: no premise on the slot. -/
theorem Memory.read_ok {f : Nat} {m : Memory} {o n : Nat} {bs : List Byte} (h : m.read f o n = .ok bs) :
    o + n ≤ f ∧ bs.length = n ∧ ∀ i < n, m.byte? (o + i) = some (bs.getD i 0) := by
  unfold Memory.read at h
  split at h
  · next hf =>
    split at h
    · next hk =>
      cases h
      have hlen : (((m.onward o).before (o + n)).map Prod.snd).length = n := by
        have := congrArg List.length hk
        simpa using this
      refine ⟨hf, hlen, fun i hi => ?_⟩
      have h1 := Memory.byte?_of_keys _ o n hk i hi
      rw [Memory.byte?_before, Memory.byte?_onward, if_pos (by omega), if_pos (by omega)] at h1
      rw [h1, List.getD_eq_getElem?_getD, List.getElem?_eq_getElem (by omega)]
      rfl
    · cases h
  · cases h

theorem Memory.keys_of_sorted {cs : Memory} {a n : Nat} (hp : cs.Pairwise (fun x y => x.1 < y.1))
    (hr : ∀ c ∈ cs, a ≤ c.1 ∧ c.1 < a + n) (hall : ∀ i < n, ∃ c ∈ cs, c.1 = a + i) :
    cs.map Prod.fst = List.range' a n := by
  have h1 : (cs.map Prod.fst).Pairwise (· < ·) := List.pairwise_map.2 hp
  have h2 : (List.range' a n).Pairwise (· < ·) := List.pairwise_lt_range'
  refine List.Perm.eq_of_pairwise (le := (· < ·)) (fun x y _ _ hxy hyx => absurd hxy (by omega)) h1 h2 ?_
  refine (List.perm_ext_iff_of_nodup (h1.imp (fun h => Nat.ne_of_lt h)) (h2.imp (fun h => Nat.ne_of_lt h))).2 ?_
  intro x
  simp only [List.mem_map, List.mem_range'_1]
  constructor
  · rintro ⟨c, hc, rfl⟩
    exact hr c hc
  · rintro ⟨hx, hx'⟩
    obtain ⟨c, hc, he⟩ := hall (x - a) (by omega)
    exact ⟨c, hc, by omega⟩

/-- A range of a canonical slot whose bytes all hold a value can be read. -/
theorem Memory.read_of_values {f : Nat} {m : Memory} (hw : m.wf = true) {o n : Nat} (hf : o + n ≤ f)
    (h : ∀ i < n, (m.byte? (o + i)).isSome = true) : ∃ bs, m.read f o n = .ok bs := by
  have hk : ((m.onward o).before (o + n)).map Prod.fst = List.range' o n := by
    apply Memory.keys_of_sorted
    · exact (Memory.wf_iff_pairwise _).1 (Memory.before_wf (Memory.onward_wf hw o) _)
    · intro c hc
      obtain ⟨hc, hlt⟩ := Memory.mem_before hc
      exact ⟨(Memory.mem_onward hc).2, hlt⟩
    · intro i hi
      obtain ⟨v, hv⟩ := Option.isSome_iff_exists.1 (h i hi)
      refine ⟨(o + i, v), ?_, rfl⟩
      apply Memory.mem_of_byte?_eq_some
      rw [Memory.byte?_before, Memory.byte?_onward, if_pos (by omega), if_pos (by omega), hv]
  exact ⟨_, by rw [Memory.read, if_pos hf, if_pos hk]⟩

/-! ### Writing a range, writing a bit -/

theorem Memory.write_ok {f : Nat} {m m' : Memory} {o : Nat} {bs : List Byte} (h : m.write f o bs = .ok m') :
    o + bs.length ≤ f ∧ m' = m.putAll o bs := by
  unfold Memory.write at h
  split at h
  · next hf => exact ⟨hf, by cases h; rfl⟩
  · cases h

theorem Memory.write_of_le {f : Nat} (m : Memory) {o : Nat} {bs : List Byte} (h : o + bs.length ≤ f) :
    m.write f o bs = .ok (m.putAll o bs) := by rw [Memory.write, if_pos h]

/-- `MemWriteBit` sets the one bit and leaves the other seven (00_scope.md R7). -/
theorem setBit_getLsbD (v : Byte) {p q : Nat} (hq : q < 8) (b : Bool) :
    (setBit v p b).getLsbD q = if q = p then b else v.getLsbD q := by
  unfold setBit
  by_cases hqp : q = p
  · subst hqp; cases b <;> simp [hq]
  · cases b <;> simp [hq, hqp]

theorem Memory.writeBit_ok {f : Nat} {m m' : Memory} {o p : Nat} {b : Bool} (h : m.writeBit f o p b = .ok m') :
    o < f ∧ ∃ v, m.byte? o = some v ∧ m' = m.put o (setBit v p b) := by
  unfold Memory.writeBit at h
  split at h
  · next hf =>
    split at h
    · cases h
    · next v hv => exact ⟨hf, v, hv, by cases h; rfl⟩
  · cases h

theorem Memory.writeBit_of_value {f : Nat} {m : Memory} {o : Nat} (p : Nat) (b : Bool) (ho : o < f) {v : Byte}
    (hv : m.byte? o = some v) : m.writeBit f o p b = .ok (m.put o (setBit v p b)) := by
  simp [Memory.writeBit, ho, hv]

end Sys2Proof.Machine
end

