-- ==== Sys2Proof/Laws/Cycle.lean ====
section
/-! SUPPORT. What the message cycle can do, said once: the lengths of messages, what `GenMsg` and `NextByte`
write, and how a call moves the position (`ROT`, `CUR`, `MLEN`). -/

namespace Sys2Proof.Machine

/-! ### Lengths (41_control_message_cycle.md R92 to R94, R99) -/

theorem templateBody_length (t : Template) (sid : Vector Byte 32) (layout : Layout) :
    (templateBody t sid layout).length = match t with | .a => 3 | .b => 10 | .c => 35 := by
  cases t <;> simp [templateBody]

theorem message_length (p : Params) (body : List Byte) : (message p body).length = body.length + 3 := by
  simp [message]

/-- The length of the message a template gives. -/
def messageLength : Template → Nat
  | .a => 6
  | .b => 13
  | .c => 38

theorem State.nextMessage_length (s : State) : s.nextMessage.length = messageLength s.rot := by
  rw [State.nextMessage, message_length, templateBody_length]
  cases s.rot <;> rfl

theorem messageLength_pos (t : Template) : 0 < messageLength t := by cases t <;> decide

theorem messageLength_le (t : Template) : messageLength t ≤ 38 := by cases t <;> decide

@[simp] theorem State.genMsg_mlen_toNat (s : State) : s.genMsg.mlen.toNat = messageLength s.rot := by
  rw [State.genMsg_mlen, State.nextMessage_length]
  cases s.rot <;> rfl

@[simp] theorem Template.pred_succ (t : Template) : t.succ.pred = t := by cases t <;> rfl

@[simp] theorem Template.succ_pred (t : Template) : t.pred.succ = t := by cases t <;> rfl

/-- The buffer holds the first 40 bytes of a message and zeros beyond it (R97). -/
theorem msgBuffer_getElem (m : List Byte) (k : Nat) (hk : k < 40) :
    (msgBuffer m)[k] = m.getD k 0 := by
  unfold msgBuffer
  simp only [Vector.getElem_mk, List.getElem_toArray, List.getElem_take]
  rw [List.getElem_append]
  split
  · next hlt => simp [List.getD_eq_getElem?_getD, hlt]
  · next hge =>
    rw [List.getElem_replicate]
    simp [List.getD_eq_getElem?_getD, Nat.not_lt.1 hge]

/-! ### What `GenMsg` and `NextByte` leave alone -/

/-- `t` is `s` but for `MSG`, `MLEN`, `CUR`, `ROT`. -/
def CycleOnly (s t : State) : Prop :=
  t = { s with msg := t.msg, mlen := t.mlen, cur := t.cur, rot := t.rot }

theorem CycleOnly.refl (s : State) : CycleOnly s s := rfl

theorem CycleOnly.trans {s t u : State} (h : CycleOnly s t) (h' : CycleOnly t u) : CycleOnly s u := by
  unfold CycleOnly at *
  rw [h'] ; rw [h]

theorem State.genMsg_cycleOnly (s : State) : CycleOnly s s.genMsg := by
  simp only [CycleOnly, State.genMsg]

theorem State.refill_cycleOnly (s : State) : CycleOnly s s.refill := by
  unfold State.refill
  split
  · exact s.genMsg_cycleOnly
  · exact .refl s

/-- What a successful `NextByte` answers (R98). -/
theorem State.nextByte_ok {s t : State} {b : Byte} (h : s.nextByte = .ok (b, t)) :
    ∃ hc : s.refill.cur.toNat < 40, b = s.refill.msg[s.refill.cur.toNat] ∧
      t = { s.refill with cur := s.refill.cur + 1 } := by
  unfold State.nextByte at h
  split at h
  · cases h
  · next b' hb =>
    obtain ⟨hc, hb⟩ := Vector.getElem?_eq_some_iff.1 hb
    cases h
    exact ⟨hc, hb.symm, rfl⟩

theorem State.nextByte_cycleOnly {s t : State} {b : Byte} (h : s.nextByte = .ok (b, t)) : CycleOnly s t := by
  obtain ⟨-, -, rfl⟩ := State.nextByte_ok h
  exact (s.refill_cycleOnly).trans rfl

/-! ### The position -/

/-- The position of the cycle: `ROT`, `CUR`, `MLEN` (10_state.md R31). -/
def State.position (s : State) : Template × Nat × Nat := (s.rot, s.cur.toNat, s.mlen.toNat)

/-- How one call of `NextByte` moves the position (R97, R98). -/
def positionAfterByte : Template × Nat × Nat → Template × Nat × Nat
  | (r, c, l) => if c = l then (r.succ, 1, messageLength r) else (r, c + 1, l)

theorem State.refill_of_end {s : State} (h : s.cur = s.mlen) : s.refill = s.genMsg := by
  rw [State.refill, if_pos h]

theorem State.refill_of_inside {s : State} (h : s.cur ≠ s.mlen) : s.refill = s := by
  rw [State.refill, if_neg h]

/-- With the cursor in range, the byte is read strictly inside the message. -/
theorem State.refill_inside {s : State} (h : s.CursorInRange) :
    s.refill.cur.toNat < s.refill.mlen.toNat ∧ s.refill.mlen.toNat ≤ 38 := by
  by_cases hc : s.cur = s.mlen
  · rw [State.refill_of_end hc, State.genMsg_mlen_toNat]
    exact ⟨by simpa using messageLength_pos s.rot, messageLength_le s.rot⟩
  · rw [State.refill_of_inside hc]
    have : s.cur.toNat ≠ s.mlen.toNat := fun he => hc (BitVec.eq_of_toNat_eq he)
    exact ⟨by have := h.1; omega, h.2⟩

/-- With the cursor in range, `NextByte` answers, and leaves it in range and above 0 (R98). -/
theorem State.nextByte_of_range {s : State} (h : s.CursorInRange) :
    ∃ b t, s.nextByte = .ok (b, t) ∧ t.CursorInRange ∧ 1 ≤ t.cur.toNat ∧
      t.position = positionAfterByte s.position := by
  obtain ⟨h1, h2⟩ := s.refill_inside h
  have hlt : s.refill.cur.toNat < 40 := by omega
  refine ⟨s.refill.msg[s.refill.cur.toNat], { s.refill with cur := s.refill.cur + 1 }, ?_, ?_, ?_, ?_⟩
  · unfold State.nextByte
    rw [Vector.getElem?_eq_getElem hlt]
  · have : (s.refill.cur + 1).toNat = s.refill.cur.toNat + 1 := by
      rw [BitVec.toNat_add]; simp; omega
    simp only [State.CursorInRange, this]
    omega
  · have : (s.refill.cur + 1).toNat = s.refill.cur.toNat + 1 := by
      rw [BitVec.toNat_add]; simp; omega
    simp only [this]
    omega
  · have e : (s.refill.cur + 1).toNat = s.refill.cur.toNat + 1 := by
      rw [BitVec.toNat_add]; simp; omega
    simp only [State.position, e, positionAfterByte]
    by_cases hc : s.cur = s.mlen
    · rw [State.refill_of_end hc]
      simp [hc]
    · have : s.cur.toNat ≠ s.mlen.toNat := fun he => hc (BitVec.eq_of_toNat_eq he)
      rw [State.refill_of_inside hc]
      simp [this]

/-- Three calls of `NextByte` take the position of `n` frames to that of `n + 1` (R100). -/
theorem cyclePosition_succ (n : Nat) :
    positionAfterByte (positionAfterByte (positionAfterByte (cyclePosition n))) = cyclePosition (n + 1) := by
  cases n with
  | zero => decide
  | succ n =>
    have hlt : n % 19 < 19 := Nat.mod_lt _ (by decide)
    have hs : (n + 1) % 19 = if n % 19 = 18 then 0 else n % 19 + 1 := by
      split <;> omega
    simp only [cyclePosition, hs]
    generalize n % 19 = r at hlt
    have : ∀ r < 19,
        positionAfterByte (positionAfterByte (positionAfterByte
          (if r < 2 then (Template.b, 3 * (r + 1), 6)
            else if r < 6 then (Template.c, 3 * (r + 1) - 6, 13)
            else (Template.a, 3 * (r + 1) - 19, 38)))) =
          (if (if r = 18 then 0 else r + 1) < 2 then
            (Template.b, 3 * ((if r = 18 then 0 else r + 1) + 1), 6)
          else if (if r = 18 then 0 else r + 1) < 6 then
            (Template.c, 3 * ((if r = 18 then 0 else r + 1) + 1) - 6, 13)
          else (Template.a, 3 * ((if r = 18 then 0 else r + 1) + 1) - 19, 38)) := by decide
    exact this r hlt

end Sys2Proof.Machine
end

