-- ==== Sys2Proof/Laws/Stream.lean ====
section
/-! SUPPORT. What writing the 252 stream bits can do, said once: which bit of which byte each stream bit lands
in, read from either side (42_ancillary_builder.md R113, R114), and what the whole interleaving answers. -/

namespace Sys2Proof.Machine

/-! ### The bit map -/

theorem bitOffset_eq (i : Nat) : bitOffset i = 0x21C + (if 30 ≤ i / 8 then i / 8 + 4 else i / 8) := rfl

theorem ancOff_le_bitOffset (i : Nat) : ancOff ≤ bitOffset i := by
  simp only [bitOffset]
  omega

theorem bitOffset_lt {i : Nat} (h : i < 252) : bitOffset i < 0x240 := by
  rw [bitOffset_eq]
  split <;> omega

theorem bitPos_lt (i : Nat) : bitPos i < 8 := by
  unfold bitPos
  omega

/-- R113 and R114 say the same map, from the two sides. -/
theorem streamIndexAt_eq_some_iff {o p i : Nat} (hp : p < 8) :
    streamIndexAt o p = some i ↔ i < 252 ∧ bitOffset i = o ∧ bitPos i = p := by
  rw [bitOffset_eq]
  unfold streamIndexAt bitPos
  constructor
  · intro h
    split at h
    · have : 8 * (o - 540) + (7 - p) = i := by simpa using h
      refine ⟨by omega, ?_, by omega⟩
      rw [if_neg (by omega)]
      omega
    · split at h
      · have : 240 + (7 - p) = i := by simpa using h
        refine ⟨by omega, ?_, by omega⟩
        rw [if_pos (by omega)]
        omega
      · split at h
        · have : 248 + (7 - p) = i := by simpa using h
          refine ⟨by omega, ?_, by omega⟩
          rw [if_pos (by omega)]
          omega
        · cases h
  · rintro ⟨hi, ho, hpos⟩
    by_cases h30 : 30 ≤ i / 8
    · rw [if_pos h30] at ho
      rw [if_neg (by omega)]
      by_cases h : o = 0x23E
      · rw [if_pos h]
        exact congrArg some (by omega)
      · rw [if_neg h, if_pos (by omega)]
        exact congrArg some (by omega)
    · rw [if_neg h30] at ho
      rw [if_pos (by omega)]
      exact congrArg some (by omega)

/-- Two stream bits never land in one place (R113). -/
theorem stream_place_injective {i j : Nat} (hi : i < 252) (hj : j < 252) (ho : bitOffset i = bitOffset j)
    (hp : bitPos i = bitPos j) : i = j := by
  have h1 := (streamIndexAt_eq_some_iff (bitPos_lt i)).2 ⟨hi, rfl, rfl⟩
  have h2 := (streamIndexAt_eq_some_iff (bitPos_lt i)).2 ⟨hj, ho.symm, hp.symm⟩
  exact Option.some.inj (h1.symm.trans h2)

/-! ### Writing a list of stream bits -/

/-- Writing stream bits answers when every byte they land in holds a value. -/
theorem writeStream_of_values (f : Nat) (cw : Vector Codeword 36) (is : List Nat) (m : Memory)
    (h : ∀ i ∈ is, bitOffset i < f ∧ (m.byte? (bitOffset i)).isSome = true) :
    ∃ m', writeStream f cw is m = .ok m' := by
  induction is generalizing m with
  | nil => exact ⟨m, rfl⟩
  | cons i is ih =>
    obtain ⟨hf, hs⟩ := h i (by simp)
    obtain ⟨v, hv⟩ := Option.isSome_iff_exists.1 hs
    simp only [writeStream, Memory.writeBit_of_value _ _ hf hv]
    apply ih
    intro j hj
    refine ⟨(h j (by simp [hj])).1, ?_⟩
    rw [Memory.byte?_put]
    split
    · rfl
    · exact (h j (by simp [hj])).2

/-- Writing stream bits keeps the canonical form, and which bytes hold a value. -/
theorem writeStream_keeps {f : Nat} {cw : Vector Codeword 36} {is : List Nat} {m m' : Memory}
    (h : writeStream f cw is m = .ok m') :
    (m.wf = true → m'.wf = true) ∧ (m.within f = true → m'.within f = true) ∧
      ∀ o, (m'.byte? o).isSome = (m.byte? o).isSome := by
  induction is generalizing m with
  | nil => cases h; exact ⟨id, id, fun _ => rfl⟩
  | cons i is ih =>
    simp only [writeStream] at h
    split at h
    · cases h
    · next m1 h1 =>
      obtain ⟨hf, v, hv, rfl⟩ := Memory.writeBit_ok h1
      obtain ⟨ih1, ih2, ih3⟩ := ih h
      refine ⟨fun hw => ih1 (Memory.put_wf hw _ _), fun hw => ih2 (Memory.put_within hw hf _), fun o => ?_⟩
      rw [ih3, Memory.byte?_put]
      split
      · next ho => subst ho; simp [hv]
      · rfl

/-- The value of every bit after writing a list of stream bits: the stream bit that lands there, or the bit as
it was. -/
theorem writeStream_bits {f : Nat} {cw : Vector Codeword 36} {is : List Nat} {m m' : Memory}
    (h : writeStream f cw is m = .ok m') (his : ∀ i ∈ is, i < 252) {o : Nat} {v w : Byte}
    (hv : m.byte? o = some v) (hw : m'.byte? o = some w) {p : Nat} (hp : p < 8) :
    (∀ i ∈ is, bitOffset i = o → bitPos i = p → w.getLsbD p = streamBit cw i) ∧
      ((∀ i ∈ is, ¬ (bitOffset i = o ∧ bitPos i = p)) → w.getLsbD p = v.getLsbD p) := by
  induction is generalizing m v with
  | nil =>
    cases h
    rw [hv] at hw
    cases hw
    simp
  | cons i is ih =>
    simp only [writeStream] at h
    split at h
    · cases h
    · next m1 h1 =>
      obtain ⟨-, u, hu, rfl⟩ := Memory.writeBit_ok h1
      have his' : ∀ j ∈ is, j < 252 := fun j hj => his j (by simp [hj])
      by_cases ho : bitOffset i = o
      · subst ho
        have hu' : u = v := by rw [hu] at hv; exact Option.some.inj hv
        subst hu'
        obtain ⟨ih1, ih2⟩ := ih h his' (v := setBit u (bitPos i) (streamBit cw i))
          (by rw [Memory.byte?_put, if_pos rfl])
        rw [setBit_getLsbD _ hp] at ih2
        constructor
        · intro j hj hoj hpj
          rcases List.mem_cons.1 hj with rfl | hj
          · by_cases hex : ∃ k ∈ is, bitOffset k = bitOffset j ∧ bitPos k = p
            · obtain ⟨k, hk, hko, hkp⟩ := hex
              have : k = j := stream_place_injective (his' k hk) (his j (by simp)) hko (hkp.trans hpj.symm)
              subst this
              exact ih1 k hk hko hkp
            · rw [ih2 (fun k hk hc => hex ⟨k, hk, hc⟩), if_pos hpj.symm]
          · exact ih1 j hj hoj hpj
        · intro hno
          rw [ih2 (fun k hk => hno k (by simp [hk])), if_neg]
          exact fun he => hno i (by simp) ⟨rfl, he.symm⟩
      · obtain ⟨ih1, ih2⟩ := ih h his' (v := v) (by rw [Memory.byte?_put, if_neg (fun he => ho he.symm), hv])
        constructor
        · intro j hj hoj hpj
          rcases List.mem_cons.1 hj with rfl | hj
          · exact absurd hoj ho
          · exact ih1 j hj hoj hpj
        · exact fun hno => ih2 (fun k hk => hno k (by simp [hk]))

/-! ### The whole interleaving -/

theorem interleaveCells_ok {f : Nat} {cw : Vector Codeword 36} {m m' : Memory}
    (h : interleaveCells f cw m = .ok m') :
    ∃ hi, writeStream f cw (List.range nBits) (m.onward ancOff) = .ok hi ∧ m' = m.before ancOff ++ hi := by
  unfold interleaveCells at h
  split at h
  · cases h
  · next hi hhi => exact ⟨hi, hhi, by cases h; rfl⟩

/-- Interleaving answers on a loaded slot of 576 bytes or more. -/
theorem interleaveCells_of_full {f : Nat} (hf : 0x240 ≤ f) (cw : Vector Codeword 36) {m : Memory}
    (h : Memory.full f m) : ∃ m', interleaveCells f cw m = .ok m' := by
  obtain ⟨hi, hhi⟩ := writeStream_of_values f cw (List.range nBits) (m.onward ancOff) (by
    intro i hi
    have hi : i < 252 := List.mem_range.1 hi
    have := bitOffset_lt hi
    refine ⟨by omega, ?_⟩
    rw [Memory.byte?_onward, if_pos (ancOff_le_bitOffset i)]
    exact h _ (by omega))
  exact ⟨_, by rw [interleaveCells, hhi]⟩

/-- A byte below the region is read from the cells set aside, one above from the cells written. -/
theorem interleaveCells_byte? {f : Nat} {cw : Vector Codeword 36} {m hi : Memory}
    (h : writeStream f cw (List.range nBits) (m.onward ancOff) = .ok hi) (o : Nat) :
    Memory.byte? (m.before ancOff ++ hi) o = if o < ancOff then m.byte? o else hi.byte? o := by
  rw [Memory.byte?_append, Memory.byte?_before]
  split
  · next ho =>
    have := (writeStream_keeps h).2.2 o
    rw [Memory.byte?_onward, if_neg (by omega)] at this
    have hn : hi.byte? o = none := by simpa using this
    rw [hn]
    simp
  · simp

/-- Interleaving keeps which bytes hold a value. -/
theorem interleaveCells_isSome {f : Nat} {cw : Vector Codeword 36} {m m' : Memory}
    (h : interleaveCells f cw m = .ok m') (o : Nat) : (m'.byte? o).isSome = (m.byte? o).isSome := by
  obtain ⟨hi, hhi, rfl⟩ := interleaveCells_ok h
  rw [interleaveCells_byte? hhi]
  split
  · rfl
  · next ho => rw [(writeStream_keeps hhi).2.2 o, Memory.byte?_onward, if_pos (by omega)]

/-- Interleaving keeps the canonical form. -/
theorem interleaveCells_wf {f : Nat} {cw : Vector Codeword 36} {m m' : Memory}
    (h : interleaveCells f cw m = .ok m') (hw : m.wf = true) : m'.wf = true := by
  obtain ⟨hi, hhi, rfl⟩ := interleaveCells_ok h
  have hhw := (writeStream_keeps hhi).1 (Memory.onward_wf hw _)
  rw [Memory.wf_iff_pairwise] at hhw ⊢
  refine List.pairwise_append.2 ⟨(Memory.wf_iff_pairwise _).1 (Memory.before_wf hw _), hhw, ?_⟩
  intro x hx y hy
  have hlt := (Memory.mem_before hx).2
  have hy' : hi.byte? y.1 = some y.2 :=
    Memory.byte?_eq_some_of_mem ((Memory.wf_iff_pairwise _).2 hhw) (by simpa using hy)
  have hs := (writeStream_keeps hhi).2.2 y.1
  rw [hy', Memory.byte?_onward] at hs
  by_cases hge : ancOff ≤ y.1
  · omega
  · simp [hge] at hs

/-- Interleaving writes no byte beyond the slot. -/
theorem interleaveCells_within {f : Nat} {cw : Vector Codeword 36} {m m' : Memory}
    (h : interleaveCells f cw m = .ok m') (hw : m.within f = true) : m'.within f = true := by
  obtain ⟨hi, hhi, rfl⟩ := interleaveCells_ok h
  have hhw := (writeStream_keeps hhi).2.1 (by
    rw [Memory.within_iff] at hw ⊢
    exact fun c hc => hw c (Memory.mem_onward hc).1)
  rw [Memory.within_iff] at hw hhw ⊢
  intro c hc
  rcases List.mem_append.1 hc with hc | hc
  · exact hw c (Memory.mem_before hc).1
  · exact hhw c hc

/-- Every byte after interleaving: the stream bits where they land, every other bit as it was (R113, R116). -/
theorem interleaveCells_bits {f : Nat} {cw : Vector Codeword 36} {m m' : Memory}
    (h : interleaveCells f cw m = .ok m') {o : Nat} {v w : Byte} (hv : m.byte? o = some v)
    (hw : m'.byte? o = some w) : InsertedByte cw o v w := by
  obtain ⟨hi, hhi, rfl⟩ := interleaveCells_ok h
  rw [interleaveCells_byte? hhi] at hw
  intro p hp
  split at hw
  · next ho =>
    rw [hv] at hw
    cases hw
    split
    · next i hi =>
      have := ((streamIndexAt_eq_some_iff hp).1 hi).2.1
      have := ancOff_le_bitOffset i
      omega
    · rfl
  · next ho =>
    have hv' : (m.onward ancOff).byte? o = some v := by
      rw [Memory.byte?_onward, if_pos (by omega), hv]
    obtain ⟨h1, h2⟩ := writeStream_bits hhi (fun i hi => by simpa [nBits] using hi) hv' hw hp
    split
    · next i hi =>
      obtain ⟨hlt, ho', hp'⟩ := (streamIndexAt_eq_some_iff hp).1 hi
      exact h1 i (by simpa [nBits] using hlt) ho' hp'
    · next hn =>
      apply h2
      rintro i hi ⟨ho', hp'⟩
      have := (streamIndexAt_eq_some_iff hp).2 ⟨by simpa [nBits] using hi, ho', hp'⟩
      rw [hn] at this
      cases this

/-- A byte that no stream bit lands in is as it was: below the region, in the gap, and above it. -/
theorem insertedByte_outside {cw : Vector Codeword 36} {o : Nat} {v w : Byte} (h : InsertedByte cw o v w)
    (ho : o < 0x21C ∨ (0x23A ≤ o ∧ o < 0x23E) ∨ 0x240 ≤ o) : w = v := by
  apply BitVec.eq_of_getLsbD_eq
  intro p hp
  have := h p hp
  rw [show streamIndexAt o p = none by
    unfold streamIndexAt
    rw [if_neg (by omega), if_neg (by omega), if_neg (by omega)]] at this
  exact this

/-! ### The pseudocode's loop over the whole slot -/

theorem Memory.put_append {lo m : Memory} {a : Nat} (h : ∀ c ∈ lo, c.1 < a) (b : Byte) :
    Memory.put (lo ++ m) a b = lo ++ m.put a b := by
  induction lo with
  | nil => rfl
  | cons d lo ih =>
    obtain ⟨k, v⟩ := d
    have hk : k < a := h (k, v) (by simp)
    rw [List.cons_append, Memory.put, if_neg (by omega), if_neg (by omega),
      ih (fun c hc => h c (by simp [hc])), List.cons_append]

theorem Memory.byte?_append_of_lt {lo m : Memory} {a : Nat} (h : ∀ c ∈ lo, c.1 < a) :
    Memory.byte? (lo ++ m) a = m.byte? a := by
  induction lo with
  | nil => rfl
  | cons d lo ih =>
    obtain ⟨k, v⟩ := d
    have hk : k < a := h (k, v) (by simp)
    rw [List.cons_append, Memory.byte?_cons, if_neg (by omega), ih (fun c hc => h c (by simp [hc]))]

theorem writeStream_append (f : Nat) (cw : Vector Codeword 36) (is : List Nat) (lo m : Memory)
    (h : ∀ c ∈ lo, c.1 < ancOff) :
    writeStream f cw is (lo ++ m) = (writeStream f cw is m).map (lo ++ ·) := by
  induction is generalizing m with
  | nil => rfl
  | cons i is ih =>
    have hlt : ∀ c ∈ lo, c.1 < bitOffset i := fun c hc => Nat.lt_of_lt_of_le (h c hc) (ancOff_le_bitOffset i)
    simp only [writeStream, Memory.writeBit, Memory.byte?_append_of_lt hlt, Memory.put_append hlt]
    by_cases hf : bitOffset i < f
    · rw [if_pos hf, if_pos hf]
      cases hv : m.byte? (bitOffset i) with
      | none => rfl
      | some v => exact ih _
    · rw [if_neg hf, if_neg hf]
      rfl

theorem Memory.before_append_onward {m : Memory} (h : m.wf = true) (a : Nat) :
    m.before a ++ m.onward a = m := by
  rw [Memory.wf_iff_pairwise] at h
  induction m with
  | nil => rfl
  | cons d m ih =>
    obtain ⟨k, v⟩ := d
    obtain ⟨hk, hp⟩ := List.pairwise_cons.1 h
    unfold Memory.before Memory.onward at ih ⊢
    by_cases hka : k < a
    · rw [List.filter_cons_of_pos (by simpa using hka), List.filter_cons_of_neg (by simpa using hka),
        List.cons_append, ih hp]
    · have hb : List.filter (fun c : Host.Cell => decide (c.1 < a)) m = [] := by
        rw [List.filter_eq_nil_iff]
        intro c hc
        have : k < c.1 := hk c hc
        simp
        omega
      have ho : List.filter (fun c : Host.Cell => decide (a ≤ c.1)) m = m := by
        rw [List.filter_eq_self]
        intro c hc
        have : k < c.1 := hk c hc
        simp
        omega
      rw [List.filter_cons_of_neg (by simpa using hka), List.filter_cons_of_pos (by simp; omega), hb, ho]
      rfl

/-- On a canonical slot, interleaving is the loop of R113 over the whole slot: 252 calls of `MemWriteBit` in
ascending order. -/
theorem interleaveCells_eq_loop (f : Nat) (cw : Vector Codeword 36) {m : Memory} (h : m.wf = true) :
    interleaveCells f cw m = writeStream f cw (List.range nBits) m := by
  conv_rhs => rw [← Memory.before_append_onward h ancOff]
  rw [writeStream_append _ _ _ _ _ (fun c hc => (Memory.mem_before hc).2)]
  unfold interleaveCells
  cases writeStream f cw (List.range nBits) (m.onward ancOff) <;> rfl

end Sys2Proof.Machine
end

