-- ==== Sys2Proof/Laws/Frame.lean ====
section
/-! SUPPORT. What building a frame can do, said once: `BuildAnc`, `Expand`, the load with the insertion, the
stamp with the emission, and `BuildFrame` as a whole (42_ancillary_builder.md R110 to R116,
43_frame_scheduler.md R131, R133). -/

namespace Sys2Proof.Machine

/-! ### `Expand` -/

/-- Codeword `i` after `Expand` (R112). -/
@[simp] theorem State.codewords_getElem (s : State) (i : Nat) (h : i < 36) : s.codewords[i] = s.codewordOf i := by
  unfold State.codewords
  simp

theorem State.codewords_even (s : State) (k : Nat) (h : k < 18) :
    s.codewords[2 * k] = bct (lowNibble (s.ancByte k)) := by
  rw [State.codewords_getElem, State.codewordOf, if_pos (by omega), show 2 * k / 2 = k by omega]
  rfl

theorem State.codewords_odd (s : State) (k : Nat) (h : k < 18) :
    s.codewords[2 * k + 1] = bct (highNibble (s.ancByte k)) := by
  rw [State.codewords_getElem, State.codewordOf, if_neg (by omega), show (2 * k + 1) / 2 = k by omega]
  rfl

/-- The codewords depend on the three stored ancillary bytes alone. -/
theorem State.codewords_congr {s t : State} (h15 : s.anc15 = t.anc15) (h16 : s.anc16 = t.anc16)
    (h17 : s.anc17 = t.anc17) : s.codewords = t.codewords := by
  apply Vector.ext
  intro i hi
  simp [State.codewordOf, State.ancByte, h15, h16, h17]

/-- The codewords of the hardwired bytes are 0 (10_state.md R24). -/
theorem State.codewords_low (s : State) (i : Nat) (h : i < 30) : s.codewords[i] = 0 := by
  rw [State.codewords_getElem, State.codewordOf]
  have : s.ancByte (i / 2) = 0 := by
    simp only [State.ancByte]
    rw [if_neg (by omega), if_neg (by omega), if_neg (by omega)]
  rw [this]
  split <;> decide

/-! ### `BuildAnc` -/

/-- What a successful `BuildAnc` did (R110). -/
theorem State.buildAnc_ok {s t : State} (h : s.buildAnc = .ok t) :
    ∃ b15 s1 b16 s2 b17 s3, s.nextByte = .ok (b15, s1) ∧ s1.nextByte = .ok (b16, s2) ∧
      s2.nextByte = .ok (b17, s3) ∧
      t = { s3 with
        anc15 := withFlag s3.par.bit7 flagSkp b15
        anc16 := withFlag s3.par.bit7 flagRdsc b16
        anc17 := withFlag s3.par.bit7 s3.flagIp b17 } := by
  unfold State.buildAnc at h
  split at h
  · cases h
  · next b15 s1 h1 =>
    split at h
    · cases h
    · next b16 s2 h2 =>
      split at h
      · cases h
      · next b17 s3 h3 =>
        cases h
        exact ⟨b15, s1, b16, s2, b17, s3, h1, h2, h3, rfl⟩

/-- `t` is `s` but for the message cycle and the three ancillary bytes. -/
def AncOnly (s t : State) : Prop :=
  t = { s with
    msg := t.msg, mlen := t.mlen, cur := t.cur, rot := t.rot
    anc15 := t.anc15, anc16 := t.anc16, anc17 := t.anc17 }

theorem State.buildAnc_ancOnly {s t : State} (h : s.buildAnc = .ok t) : AncOnly s t := by
  obtain ⟨b15, s1, b16, s2, b17, s3, h1, h2, h3, rfl⟩ := State.buildAnc_ok h
  have hc : CycleOnly s s3 :=
    ((State.nextByte_cycleOnly h1).trans (State.nextByte_cycleOnly h2)).trans (State.nextByte_cycleOnly h3)
  unfold CycleOnly at hc
  unfold AncOnly
  rw [hc]

/-- With the cursor in range, `BuildAnc` answers and moves the position by three bytes. -/
theorem State.buildAnc_of_range {s : State} (h : s.CursorInRange) :
    ∃ t, s.buildAnc = .ok t ∧ t.CursorInRange ∧ 1 ≤ t.cur.toNat ∧
      t.position = positionAfterByte (positionAfterByte (positionAfterByte s.position)) := by
  obtain ⟨b15, s1, h1, r1, -, p1⟩ := State.nextByte_of_range h
  obtain ⟨b16, s2, h2, r2, -, p2⟩ := State.nextByte_of_range r1
  obtain ⟨b17, s3, h3, r3, c3, p3⟩ := State.nextByte_of_range r2
  refine ⟨{ s3 with
      anc15 := withFlag s3.par.bit7 flagSkp b15
      anc16 := withFlag s3.par.bit7 flagRdsc b16
      anc17 := withFlag s3.par.bit7 s3.flagIp b17 },
    by simp only [State.buildAnc, h1, h2, h3], r3, c3, ?_⟩
  rw [← p1, ← p2, ← p3]
  rfl

/-! ### The slots play no part in the message cycle -/

theorem State.refill_setSlot (s : State) (i : SlotId) (m : Memory) :
    (s.setSlot i m).refill = s.refill.setSlot i m := by
  by_cases h : s.cur = s.mlen
  · rw [State.refill_of_end h, State.refill_of_end (by simpa using h)]
    cases i <;> simp only [State.genMsg, State.nextMessage, State.setSlot]
  · rw [State.refill_of_inside h, State.refill_of_inside (by simpa using h)]

theorem State.nextByte_setSlot (s : State) (i : SlotId) (m : Memory) :
    (s.setSlot i m).nextByte = s.nextByte.map (fun r => (r.1, r.2.setSlot i m)) := by
  simp only [State.nextByte, State.refill_setSlot, State.setSlot_msg, State.setSlot_cur]
  split
  · rfl
  · cases i <;> rfl

theorem State.buildAnc_setSlot (s : State) (i : SlotId) (m : Memory) :
    (s.setSlot i m).buildAnc = s.buildAnc.map (fun t => t.setSlot i m) := by
  simp only [State.buildAnc, State.nextByte_setSlot]
  cases s.nextByte with
  | error e => rfl
  | ok r1 =>
    simp only [Except.map, State.nextByte_setSlot]
    cases r1.2.nextByte with
    | error e => rfl
    | ok r2 =>
      simp only [Except.map, State.nextByte_setSlot]
      cases r2.2.nextByte with
      | error e => rfl
      | ok r3 => cases i <;> rfl

theorem State.expand_setSlot (s : State) (i : SlotId) (m : Memory) :
    (s.setSlot i m).expand = s.expand.setSlot i m := by
  have : (s.setSlot i m).codewords = s.codewords := State.codewords_congr (by simp) (by simp) (by simp)
  cases i <;> simp only [State.expand, this] <;> rfl

/-- Steps (1) and (2) of `BuildFrame` on a whole frame: the ancillary bytes come from the cycle alone, and the
slot is the frame with their stream bits. -/
theorem State.loadAndInsert_eq (s : State) {fin : List Byte} (h : fin.length = s.fBytes) :
    s.loadAndInsert fin =
      match s.buildAnc with
      | .error e => .error e
      | .ok sa =>
        match interleaveCells s.fBytes sa.codewords ((s.slot s.currentSlot).putAll 0 fin) with
        | .error e => .error e
        | .ok m => .ok (sa.expand.setSlot s.currentSlot m) := by
  have hw : s.memWrite s.currentSlot 0 fin
      = .ok (s.setSlot s.currentSlot ((s.slot s.currentSlot).putAll 0 fin)) := by
    simp only [State.memWrite, Memory.write_of_le _ (show 0 + fin.length ≤ s.fBytes by omega)]
  simp only [State.loadAndInsert, hw, State.insertAnc, State.buildAnc_setSlot]
  cases hb : s.buildAnc with
  | error e => rfl
  | ok sa =>
    have hpar : sa.fBytes = s.fBytes := by
      have := State.buildAnc_ancOnly hb
      unfold AncOnly at this
      rw [this]
      rfl
    have hcw : sa.expand.cw = sa.codewords := rfl
    simp only [Except.map, State.expand_setSlot, State.interleave, State.setSlot_fBytes, State.setSlot_cw,
      State.setSlot_slot, hcw, show sa.expand.fBytes = sa.fBytes from rfl, hpar]
    cases interleaveCells s.fBytes sa.codewords ((s.slot s.currentSlot).putAll 0 fin) with
    | error e => rfl
    | ok m => cases s.currentSlot <;> rfl

/-! ### `BuildFrame` -/

/-- A loaded slot is full. -/
theorem Memory.putAll_full (m : Memory) {f : Nat} {bs : List Byte} (h : bs.length = f) :
    Memory.full f (m.putAll 0 bs) := by
  intro o ho
  rw [Memory.byte?_putAll, if_pos (by omega)]
  simp [List.getElem?_eq_getElem (show o < bs.length by omega)]

/-- The byte of a loaded slot. -/
theorem Memory.byte?_putAll_zero (m : Memory) {bs : List Byte} {o : Nat} (h : o < bs.length) :
    (m.putAll 0 bs).byte? o = some (bs.getD o 0) := by
  rw [Memory.byte?_putAll, if_pos (by omega)]
  simp [h]

/-- What steps (1) and (2) leave, when the cursor is in range: the cycle three bytes on, the three ancillary
bytes, their codewords, and in the current slot the frame with the ancillary bits. -/
theorem State.loadAndInsert_spec {s : State} (hr : s.CursorInRange) {fin : List Byte}
    (h : fin.length = s.fBytes) :
    ∃ sa m, s.buildAnc = .ok sa ∧ s.loadAndInsert fin = .ok (sa.expand.setSlot s.currentSlot m) ∧
      Memory.full s.fBytes m ∧ ((s.slot s.currentSlot).wf = true → m.wf = true) ∧
      ((s.slot s.currentSlot).within s.fBytes = true → m.within s.fBytes = true) ∧
      ∀ o < s.fBytes, ∀ w, m.byte? o = some w → InsertedByte sa.codewords o (fin.getD o 0) w := by
  obtain ⟨sa, hsa, -, -, -⟩ := State.buildAnc_of_range hr
  have hF : 0x240 ≤ s.fBytes := Nat.le_add_right _ _
  have hfull := Memory.putAll_full (s.slot s.currentSlot) h
  obtain ⟨m, hm⟩ := interleaveCells_of_full hF sa.codewords hfull
  refine ⟨sa, m, hsa, ?_, ?_, ?_, ?_, ?_⟩
  · rw [State.loadAndInsert_eq s h, hsa]
    simp only [hm]
  · intro o ho
    rw [interleaveCells_isSome hm]
    exact hfull o ho
  · exact fun hw => interleaveCells_wf hm (Memory.putAll_wf hw _ _)
  · exact fun hw => interleaveCells_within hm (Memory.putAll_within hw (by omega))
  · intro o ho w hw
    exact interleaveCells_bits hm (Memory.byte?_putAll_zero _ (by omega)) hw

/-- What a successful `BuildFrame` did. -/
theorem State.buildFrame_ok {s t : State} {fin : List Byte} {scf : Vector Byte 4} {out : Option Frame}
    (h : s.buildFrame fin scf = .ok (out, t)) :
    ∃ s1 s2, s.loadAndInsert fin = .ok s1 ∧ s1.stampAndEmit scf = .ok (out, s2) ∧ t = s2.countFrame := by
  unfold State.buildFrame at h
  split at h
  · cases h
  · next s1 h1 =>
    split at h
    · cases h
    · next o s2 h2 =>
      cases h
      exact ⟨s1, s2, h1, h2, rfl⟩

end Sys2Proof.Machine
end

