-- ==== Sys2Proof/Laws/Encoding.lean ====
section
/-! SUPPORT. The fields of a command word (30_encoding.md R60): a word is its three fields, and the fields of an
assembled word are those it was assembled from. -/

namespace Sys2Proof

theorem mkWord_getLsbD (op : BitVec 4) (a d : Byte) (i : Nat) :
    (mkWord op a d).getLsbD i =
      if i < 8 then d.getLsbD i else if i - 8 < 8 then a.getLsbD (i - 8) else op.getLsbD (i - 8 - 8) := by
  show ((op ++ a ++ d : BitVec (4 + 8 + 8))).getLsbD i = _
  rw [BitVec.getLsbD_append, BitVec.getLsbD_append]

@[simp] theorem opField_mkWord (op : BitVec 4) (a d : Byte) : opField (mkWord op a d) = op := by
  apply BitVec.eq_of_getLsbD_eq
  intro i hi
  rw [opField, BitVec.getLsbD_extractLsb', mkWord_getLsbD, if_neg (by omega), if_neg (by omega),
    show 16 + i - 8 - 8 = i by omega]
  simp [hi]

@[simp] theorem aField_mkWord (op : BitVec 4) (a d : Byte) : aField (mkWord op a d) = a := by
  apply BitVec.eq_of_getLsbD_eq
  intro i hi
  rw [aField, BitVec.getLsbD_extractLsb', mkWord_getLsbD, if_neg (by omega), if_pos (by omega),
    show 8 + i - 8 = i by omega]
  simp [hi]

@[simp] theorem dField_mkWord (op : BitVec 4) (a d : Byte) : dField (mkWord op a d) = d := by
  apply BitVec.eq_of_getLsbD_eq
  intro i hi
  rw [dField, BitVec.getLsbD_extractLsb', mkWord_getLsbD, if_pos (by omega)]
  simp [hi]

/-- A word is assembled from its own fields. -/
theorem mkWord_fields (w : CmdWord) : mkWord (opField w) (aField w) (dField w) = w := by
  apply BitVec.eq_of_getLsbD_eq
  intro i hi
  rw [mkWord_getLsbD]
  simp only [opField, aField, dField, BitVec.getLsbD_extractLsb']
  split
  · next h => simp [h]
  · split
    · next h1 h2 => simp [h2, show 8 + (i - 8) = i by omega]
    · next h1 h2 => simp [show 16 + (i - 8 - 8) = i by omega, show i - 8 - 8 < 4 by omega]

/-- The well-formedness check in terms of the fields. -/
theorem wellFormed_mkWord (op : BitVec 4) (a d : Byte) :
    CmdWord.wellFormed (mkWord op a d) =
      match formatOf op with
      | none => false
      | some f => formatOk f a d && operandOk op a d := by
  have h1 := opField_mkWord op a d
  have h2 := aField_mkWord op a d
  have h3 := dField_mkWord op a d
  unfold opField at h1
  unfold aField at h2
  unfold dField at h3
  cases hf : formatOf op <;> simp only [CmdWord.wellFormed, h1, h2, h3, hf]

@[simp] theorem Layout.ofBits_bits (l : Layout) : Layout.ofBits l.bits = l := by cases l <;> decide

end Sys2Proof
end

