-- ==== Sys2Proof/Laws/PerInstr.lean ====
section
/-! SUPPORT. Families of statements made per instruction: `EncodesWellFormed`, that the word of a command is
well formed in the sense of 30_encoding.md R61 and R65. -/

namespace Sys2Proof.Laws

/-- The word that encodes a command passes every field check of R61 and R65. -/
def EncodesWellFormed.Statement (i : Instr) : Prop := (encode i).wellFormed = true

theorem EncodesWellFormed.wrsid (k : BitVec 5) (d : Byte) : EncodesWellFormed.Statement (.wrsid k d) := by
  have hk : k.toNat < 32 := k.isLt
  simp only [EncodesWellFormed.Statement, encode, wellFormed_mkWord]
  have : k.toNat % 256 < 32 := by omega
  simp [formatOf, formatOk, operandOk, this]

theorem EncodesWellFormed.wrctl (layout : Layout) (ie : Bool) :
    EncodesWellFormed.Statement (.wrctl layout ie) := by
  cases layout <;> cases ie <;> rfl

theorem EncodesWellFormed.start : EncodesWellFormed.Statement .start := rfl

theorem EncodesWellFormed.produce : EncodesWellFormed.Statement .produce := rfl

theorem EncodesWellFormed.eos : EncodesWellFormed.Statement .eos := rfl

theorem EncodesWellFormed.rdreg (a : Byte) : EncodesWellFormed.Statement (.rdreg a) := by
  simp only [EncodesWellFormed.Statement, encode, wellFormed_mkWord]
  simp [formatOf, formatOk, operandOk]

theorem EncodesWellFormed.enc4 (v : BitVec 4) : EncodesWellFormed.Statement (.enc4 v) := by
  have hv : v.toNat < 16 := v.isLt
  simp only [EncodesWellFormed.Statement, encode, wellFormed_mkWord]
  have : v.toNat % 256 < 16 := by omega
  simp [formatOf, formatOk, operandOk, this]

theorem EncodesWellFormed.enc8 (b : Byte) : EncodesWellFormed.Statement (.enc8 b) := by
  simp only [EncodesWellFormed.Statement, encode, wellFormed_mkWord]
  simp [formatOf, formatOk, operandOk]

end Sys2Proof.Laws
end

