-- ==== Sys2Proof/Laws/Exec.lean ====
section
/-! SUPPORT. What a command can do, said once: if `exec` or `step` answers a next state, one of these cases
holds. Later proofs cite these instead of unfolding the meanings. -/

namespace Sys2Proof.Machine

/-- Everything a command that answers can have done. -/
theorem exec_next {i : Instr} {s t : State} (h : exec i s = .next t) :
    (∃ e, t = s.raise e) ∨
    (∃ v, t = s.respond (.value v) ∧ ((∃ a, i = .rdreg a) ∨ (∃ n, i = .enc4 n) ∨ ∃ b, i = .enc8 b)) ∨
    (∃ k d, i = .wrsid k d ∧ s.phase = .config ∧
      t = { s with sid := s.sid.set k.toNat d k.isLt }.respond .done) ∨
    (∃ l e, i = .wrctl l e ∧ s.phase = .config ∧ t = { s with ie := e, layout := l }.respond .done) ∨
    (i = .start ∧ s.phase = .config ∧ s.sidHoldsHash = false ∧ t = { s with phase := .run }.respond .done) ∨
    (i = .produce ∧ s.phase = .run ∧ s.fin.length = 0 ∧ t = s.respond .done) ∨
    (i = .eos ∧ s.phase = .run ∧ s.fin.length = 0 ∧ t = { s with phase := .done }.respond .done) ∨
    (∃ out u, s.phase = .run ∧ s.fin.length = s.fBytes ∧ s.buildFrame s.fin s.scf = .ok (out, u) ∧
      (i = .produce ∧ t = u.respond (.frame out) ∨
        i = .eos ∧ t = { u with phase := .done }.respond (.frame out))) := by
  cases i with
  | wrsid k d =>
    simp only [exec, execWrsid] at h
    split at h
    · next hp => cases h; exact .inr (.inr (.inl ⟨k, d, rfl, hp, rfl⟩))
    · cases h; exact .inl ⟨_, rfl⟩
  | wrctl l e =>
    simp only [exec, execWrctl] at h
    split at h
    · next hp => cases h; exact .inr (.inr (.inr (.inl ⟨l, e, rfl, hp, rfl⟩)))
    · cases h; exact .inl ⟨_, rfl⟩
  | start =>
    simp only [exec, execStart] at h
    split at h
    · next hp =>
      split at h
      · cases h; exact .inl ⟨_, rfl⟩
      · next hh =>
        cases h
        exact .inr (.inr (.inr (.inr (.inl ⟨rfl, hp, by simpa using hh, rfl⟩))))
    · cases h; exact .inl ⟨_, rfl⟩
  | produce =>
    simp only [exec, execProduce] at h
    split at h
    · next hp =>
      split at h
      · next hl =>
        cases h
        exact .inr (.inr (.inr (.inr (.inr (.inl ⟨rfl, hp, hl, rfl⟩)))))
      · split at h
        · next hl =>
          split at h
          · cases h
          · next out u hb =>
            cases h
            exact .inr (.inr (.inr (.inr (.inr (.inr (.inr ⟨out, u, hp, hl, hb, .inl ⟨rfl, rfl⟩⟩))))))
        · cases h; exact .inl ⟨_, rfl⟩
    · cases h; exact .inl ⟨_, rfl⟩
  | eos =>
    simp only [exec, execEos] at h
    split at h
    · next hp =>
      split at h
      · next hl =>
        cases h
        exact .inr (.inr (.inr (.inr (.inr (.inr (.inl ⟨rfl, hp, hl, rfl⟩))))))
      · split at h
        · next hl =>
          split at h
          · cases h
          · next out u hb =>
            cases h
            exact .inr (.inr (.inr (.inr (.inr (.inr (.inr ⟨out, u, hp, hl, hb, .inr ⟨rfl, rfl⟩⟩))))))
        · cases h; exact .inl ⟨_, rfl⟩
    · cases h; exact .inl ⟨_, rfl⟩
  | rdreg a =>
    simp only [exec, execRdreg] at h
    split at h
    · cases h; exact .inl ⟨_, rfl⟩
    · cases h; exact .inr (.inl ⟨_, rfl, .inl ⟨a, rfl⟩⟩)
  | enc4 v => cases h; exact .inr (.inl ⟨_, rfl, .inr (.inl ⟨v, rfl⟩)⟩)
  | enc8 b => cases h; exact .inr (.inl ⟨_, rfl, .inr (.inr ⟨b, rfl⟩)⟩)

/-- Everything a step that answers can have done. -/
theorem step_next {s t : State} (h : step s = .next t) :
    (s.pending = [] ∧ t = s) ∨
    (∃ rest, s.pending = .rst :: rest ∧ t = s.applyReset) ∨
    (∃ w fin scf rest e, s.pending = .command w fin scf :: rest ∧ decode w = .error e ∧
      t = s.raise .illegalCmd) ∨
    (∃ w fin scf rest i, s.pending = .command w fin scf :: rest ∧ decode w = .ok i ∧ exec i s = .next t) := by
  unfold step State.presented at h
  cases hp : s.pending with
  | nil =>
    simp only [hp, List.head?_nil] at h
    cases h
    exact .inl ⟨rfl, rfl⟩
  | cons ev rest =>
    simp only [hp, List.head?_cons] at h
    cases ev with
    | rst => cases h; exact .inr (.inl ⟨rest, rfl, rfl⟩)
    | command w fin scf =>
      simp only at h
      cases hd : decode w with
      | error e =>
        simp only [hd] at h
        cases h
        exact .inr (.inr (.inl ⟨w, fin, scf, rest, e, rfl, hd, rfl⟩))
      | ok i =>
        simp only [hd] at h
        exact .inr (.inr (.inr ⟨w, fin, scf, rest, i, rfl, hd, h⟩))

/-- Everything the stamp with the emission can have done (43_frame_scheduler.md R131, R133). -/
theorem State.stampAndEmit_ok {s t : State} {scf : Vector Byte 4} {out : Option Frame}
    (h : s.stampAndEmit scf = .ok (out, t)) :
    (s.ie = false ∧ t = s ∧ ∃ f, out = some f ∧ s.memRead s.currentSlot 0 s.fBytes = .ok f) ∨
    (s.ie = true ∧ t = s.setSlot s.previousSlot ((s.slot s.previousSlot).putAll gapOff scf.toList) ∧
      (s.fc = 0 ∧ out = none ∨
        s.fc ≠ 0 ∧ ∃ f, out = some f ∧ t.memRead s.previousSlot 0 s.fBytes = .ok f)) := by
  unfold State.stampAndEmit at h
  split at h
  · next hie =>
    refine .inr ⟨hie, ?_⟩
    split at h
    · cases h
    · next s1 h1 =>
      unfold State.memWrite at h1
      split at h1
      · cases h1
      · next m hm =>
        cases h1
        obtain ⟨-, rfl⟩ := Memory.write_ok hm
        split at h
        · next hfc =>
          cases h
          exact ⟨rfl, .inl ⟨by simpa using hfc, rfl⟩⟩
        · next hfc =>
          split at h
          · cases h
          · next f hf =>
            cases h
            refine ⟨rfl, .inr ⟨by simpa using hfc, f, rfl, ?_⟩⟩
            have hps : (s.setSlot s.previousSlot ((s.slot s.previousSlot).putAll gapOff scf.toList)).previousSlot
                = s.previousSlot := by simp [State.previousSlot, State.currentSlot]
            rwa [hps, State.setSlot_fBytes] at hf
  · next hie =>
    refine .inl ⟨by simpa using hie, ?_⟩
    split at h
    · cases h
    · next f hf =>
      cases h
      exact ⟨rfl, f, rfl, hf⟩

end Sys2Proof.Machine
end

