-- ==== Sys2Proof/Tests/Slice0.lean ====
section
/-! SUPPORT. The model's own tests: the field checks on command words, one word written out for every command,
one step of each command with the values of 95_test_vectors.md, and for every statement with hypotheses a witness
that meets them. -/

namespace Sys2Proof.Tests

open Sys2Proof.Machine

/-! ## Ill-formed words, one for each check of 30_encoding.md R65 -/

theorem test_wf_refuses_opcode_0 : CmdWord.wellFormed 0x00000 = false := by decide
theorem test_wf_refuses_opcode_9 : CmdWord.wellFormed 0x90000 = false := by decide
theorem test_wf_refuses_opcode_15 : CmdWord.wellFormed 0xFFFFF = false := by decide
theorem test_wf_refuses_wrsid_index_32 : CmdWord.wellFormed 0x12000 = false := by decide
theorem test_wf_refuses_wrctl_a : CmdWord.wellFormed 0x20105 = false := by decide
theorem test_wf_refuses_wrctl_skp : CmdWord.wellFormed 0x20008 = false := by decide
theorem test_wf_refuses_start_a : CmdWord.wellFormed 0x30100 = false := by decide
theorem test_wf_refuses_start_d : CmdWord.wellFormed 0x30001 = false := by decide
theorem test_wf_refuses_produce_a : CmdWord.wellFormed 0x48000 = false := by decide
theorem test_wf_refuses_produce_d : CmdWord.wellFormed 0x40080 = false := by decide
theorem test_wf_refuses_eos_a : CmdWord.wellFormed 0x50100 = false := by decide
theorem test_wf_refuses_eos_d : CmdWord.wellFormed 0x50001 = false := by decide
theorem test_wf_refuses_rdreg_d : CmdWord.wellFormed 0x62101 = false := by decide
theorem test_wf_refuses_enc4_a : CmdWord.wellFormed 0x70100 = false := by decide
theorem test_wf_refuses_enc4_d : CmdWord.wellFormed 0x70010 = false := by decide
theorem test_wf_refuses_enc8_a : CmdWord.wellFormed 0x80100 = false := by decide

/-! ## One word of each command, field by field: op, a, d (30_encoding.md R60, R64) -/

/-- `WRSID 31, 0xFF`: 0001 00011111 11111111 (V17). -/
theorem test_decode_wrsid : decode 0b00010001111111111111 = .ok (.wrsid 31 0xFF) := by decide

/-- `WRCTL joint, 1`: 0010 00000000 00000101 (V17). -/
theorem test_decode_wrctl : decode 0b00100000000000000101 = .ok (.wrctl .joint true) := by decide

/-- `START`: 0011 and zeros (V17). -/
theorem test_decode_start : decode 0b00110000000000000000 = .ok .start := by decide

/-- `PRODUCE`: 0100 and zeros (R64). -/
theorem test_decode_produce : decode 0b01000000000000000000 = .ok .produce := by decide

/-- `EOS`: 0101 and zeros (R64). -/
theorem test_decode_eos : decode 0b01010000000000000000 = .ok .eos := by decide

/-- `RDREG 0x25`: 0110 00100101 00000000 (V17). -/
theorem test_decode_rdreg : decode 0b01100010010100000000 = .ok (.rdreg 0x25) := by decide

/-- `ENC4 9`: 0111 00000000 00001001 (V1). -/
theorem test_decode_enc4 : decode 0b01110000000000001001 = .ok (.enc4 9) := by decide

/-- `ENC8 0x84`: 1000 00000000 10000100 (40_block_code.md R84). -/
theorem test_decode_enc8 : decode 0b10000000000010000100 = .ok (.enc8 0x84) := by decide

/-! ## Small states -/

/-- No integrity field. -/
def noScf : Vector Byte 4 := Vector.replicate 4 0

/-- The host offers one command with its side-band operands. -/
def offer (s : State) (w : CmdWord) (fin : List Byte) (scf : Vector Byte 4) : State :=
  { s with pending := [.command w fin scf] }

/-- The host issues one command without side-band operands. -/
def issue (s : State) (w : CmdWord) : State := offer s w [] noScf

/-- The host asserts `rst`. -/
def resetting (s : State) : State := { s with pending := [.rst] }

/-- A frame of 576 equal bytes, `fill(x)` of 95_test_vectors.md. -/
def fill (x : Byte) : Frame := List.replicate 576 x

/-- What the host sees of one step: `rsp.err`, `rsp.data` and `STATUS` after it. -/
def seen (s : State) : Option (Nat × Nat × Nat) :=
  match step s with
  | .next t => t.responses.getLast?.map (fun r => (r.err.toNat, r.data.toNat, t.statusByte.toNat))
  | _ => none

/-- The emitted frame of one step, from an offset on. -/
def emittedFrom (o : Nat) (s : State) : Option (List Byte) :=
  match step s with
  | .next t => t.responses.getLast?.bind (fun r => r.out.map (fun f => f.drop o))
  | _ => none

/-- A run with the check off, nothing built. -/
def running : State := { State.reset with phase := .run }

/-- A run with the check on, nothing built. -/
def checking : State := { running with ie := true }

/-- Phase ERROR, entered by `SEQ_ERR`. -/
def failed : State := { State.reset with phase := .error, errcode := 2 }

/-- A slot that holds `fill(x)`. -/
def filled (x : Byte) : Memory := Memory.putAll [] 0 (fill x)

/-- A codeword file whose first thirty entries are 0. -/
def lastSix (v : Vector Codeword 6) : Vector Codeword 36 := Vector.replicate 30 (0 : Codeword) ++ v

/-- The region of the frame that V15 builds first, without the gap: 30 bytes and 2 bytes. -/
def heldRegion : List Byte :=
  [0x00, 0x00, 0x00, 0x02, 0xD0, 0x00, 0x00, 0x00, 0x0F, 0x00, 0x00, 0x00, 0x00, 0xC0, 0x00,
    0x00, 0x00, 0x23, 0x00, 0x00, 0x00, 0x02, 0x00, 0x00, 0x00, 0x00, 0x02, 0x00, 0x00, 0x00]

/-- The frame that V15 builds first. -/
def heldFrame : Frame := List.replicate 0x21C 0xAA ++ heldRegion ++ List.replicate 4 0xAA ++ [0x00, 0x1A]

/-- Slot 0 with that frame in it. -/
def heldSlot : Memory := Memory.putAll [] 0 heldFrame

/-- The state of V15 after its `PRODUCE`: a run with the check on and frame 0 held in slot 0. -/
def held : State :=
  { checking with
    msg := msgBuffer [0x02, 0x11, 0x04, 0x35, 0x31, 0x03]
    mlen := 6, cur := 3, rot := .b, fc := 1
    slot0 := heldSlot
    slot1 := Memory.putAll [] 0x23A [0x01, 0x02, 0x03, 0x04]
    anc15 := 0x02, anc16 := 0x11, anc17 := 0x84
    cw := lastSix #v[0x19, 0x00, 0x07, 0x07, 0x2A, 0x4B] }

/-- A run with the check off and the 19 frames of the empty identity built: row 18 of the variants of V8. -/
def cycled : State :=
  { running with
    msg := msgBuffer ([0x02, 0x16] ++ List.replicate 32 0 ++ [0x23, 0x39, 0x33, 0x03])
    mlen := 38, cur := 38, rot := .a, fc := 19
    slot0 := filled 0x00, slot1 := filled 0x00
    anc15 := 0x39, anc16 := 0x33, anc17 := 0x03
    cw := lastSix #v[0x4C, 0x1E, 0x1E, 0x1E, 0x1E, 0x00] }

/-- The next byte of this state is the ETX of template A. -/
def atEtx : State :=
  { running with msg := msgBuffer [0x02, 0x11, 0x04, 0x35, 0x31, 0x03], mlen := 6, cur := 5, rot := .b }

/-- An identity with a byte 0x23 in it. -/
def hashed : State := { State.reset with sid := State.reset.sid.set 5 0x23 }

/-! ## One step of each command -/

/-- V17: `WRSID 31, 0xFF` writes the last byte. -/
theorem test_wrsid : (match step (issue State.reset 0x11FFF) with
    | .next t => (t.sid[31].toNat, t.sid[30].toNat, t.statusByte.toNat)
    | _ => (0, 0, 0)) = (0xFF, 0, 0) := by decide

/-- V17: `WRSID 0, 1` in phase RUN raises `SEQ_ERR`. -/
theorem test_wrsid_in_run : seen (issue running 0x10001) = some (2, 0, 0x0B) := by decide

/-- V17: `WRCTL joint, 1` leaves `CTRL` = 0x05. -/
theorem test_wrctl : (match step (issue State.reset 0x20005) with
    | .next t => (t.ctrlByte.toNat, t.modeCh.toNat)
    | _ => (0, 0)) = (0x05, 0x53) := by decide

/-- V17: `START` from reset. -/
theorem test_start : seen (issue State.reset 0x30000) = some (0, 0, 0x01) := by decide

/-- V17: `START` on an identity with 0x23 raises `CFG_ERR`. -/
theorem test_start_with_hash : seen (issue hashed 0x30000) = some (3, 0, 0x0F) := by decide

/-- V17: `RDREG 0x25` reads the mode character of mono. -/
theorem test_rdreg : seen (issue State.reset 0x62500) = some (0, 0x4D, 0) := by decide

/-- V17: `RDREG 0x26` raises `ADDR_ERR`. -/
theorem test_rdreg_unmapped : seen (issue State.reset 0x62600) = some (5, 0, 0x17) := by decide

/-- V18: `ENC4 5` still works in phase ERROR. -/
theorem test_enc4 : seen (issue failed 0x70005) = some (0, 0x2D, 0x0B) := by decide

/-- V2: `ENC8 0x84`. -/
theorem test_enc8 : seen (issue State.reset 0x80084) = some (0, 0x4B2A, 0) := by decide

/-- V18: a frame one byte short raises `LEN_ERR`. -/
theorem test_produce_short : seen (offer running 0x40000 (List.replicate 575 0) noScf) = some (4, 0, 0x13) := by
  decide +kernel

/-- V11: the 252 bits are cleared or set, the gap and the low nibble of 0x23F keep the encoder's bytes. -/
theorem test_produce_frame : emittedFrom 0x218 (offer running 0x40000 (fill 0xFF) noScf) =
    some [0xFF, 0xFF, 0xFF, 0xFF,
      0x00, 0x00, 0x00, 0x02, 0xC0, 0x00, 0x00, 0x00, 0x0E, 0x00, 0x00, 0x00, 0x00, 0xC0, 0x00,
      0x00, 0x00, 0x22, 0x00, 0x00, 0x00, 0x02, 0x00, 0x00, 0x00, 0x00, 0x02, 0x00, 0x00, 0x00,
      0xFF, 0xFF, 0xFF, 0xFF, 0x00, 0x0F] := by decide +kernel

/-- V16: `EOS` without bytes ends the run. -/
theorem test_eos_empty : seen (issue running 0x50000) = some (0, 0, 0x02) := by decide

/-- V15: `EOS` with a frame emits the frame before it, with the new integrity field in the gap. -/
theorem test_eos_frame : emittedFrom 0x21B (offer held 0x50000 (fill 0xBB) #v[0x05, 0x06, 0x07, 0x08]) =
    some ([0xAA] ++ heldRegion ++ [0x05, 0x06, 0x07, 0x08, 0x00, 0x1A]) := by decide +kernel

/-- V18: reset is the way out of phase ERROR. -/
theorem test_reset : (match step (resetting failed) with
    | .next t => t.statusByte.toNat
    | _ => 1) = 0 := by decide

/-- V9, under the other value of `BIT7_MODE` (93_implementation_defined.md U4): bit 7 of the message byte is kept. -/
theorem test_bit7_modes : withFlag .replaceBit false 0x80 = 0x00 ∧ withFlag .orBit false 0x80 = 0x80 ∧
    withFlag .replaceBit true 0x04 = 0x84 := by decide

/-! ## The witness states meet the invariant -/

theorem fill_length (x : Byte) : (fill x).length = 576 := List.length_replicate

theorem heldFrame_length : heldFrame.length = 576 := by decide +kernel

theorem heldSlot_full : Memory.full 576 heldSlot := Memory.putAll_full [] heldFrame_length

theorem heldSlot_wf : heldSlot.wf = true := Memory.putAll_wf rfl 0 heldFrame

theorem heldSlot_within : heldSlot.within 576 = true := Memory.putAll_within rfl (by rw [heldFrame_length])

theorem filled_full (x : Byte) : Memory.full 576 (filled x) := Memory.putAll_full [] (fill_length x)

theorem filled_wf (x : Byte) : (filled x).wf = true := Memory.putAll_wf rfl 0 (fill x)

theorem filled_within (x : Byte) : (filled x).within 576 = true :=
  Memory.putAll_within rfl (by rw [fill_length])

theorem running_inv : running.Inv :=
  ⟨by decide, by decide, by decide, by decide, by decide, by decide, by decide,
    ⟨fun h => absurd h (Nat.lt_irrefl 0), fun h => absurd h (by decide)⟩, by decide, by decide, by decide, by decide⟩

theorem checking_inv : checking.Inv :=
  ⟨by decide, by decide, by decide, by decide, by decide, by decide, by decide,
    ⟨fun h => absurd h (Nat.lt_irrefl 0), fun h => absurd h (by decide)⟩, by decide, by decide, by decide, by decide⟩

theorem held_inv : held.Inv :=
  ⟨by decide, by decide, by decide, by decide, by decide, by decide, by decide,
    ⟨fun _ => heldSlot_full, fun h => absurd h (by decide)⟩, ⟨⟨heldSlot_wf, heldSlot_within⟩, ⟨rfl, rfl⟩⟩,
    by decide +kernel, by decide, by decide⟩

theorem cycled_inv : cycled.Inv :=
  ⟨by decide, by decide, by decide, by decide, by decide, by decide, by decide,
    ⟨fun _ => filled_full 0x00, fun _ => ⟨filled_full 0x00, filled_full 0x00⟩⟩,
    ⟨⟨filled_wf 0x00, filled_within 0x00⟩, ⟨filled_wf 0x00, filled_within 0x00⟩⟩, by decide +kernel, by decide,
    by decide⟩

/-! ## Witnesses: for each statement with hypotheses, states and operands that meet them -/

/-- A command step whose response is known. -/
abbrev Answers (s : State) (w : CmdWord) (t : State) (r : Response) : Prop :=
  CommandStep s w t ∧ t.responses = s.responses ++ [r]

/-- A full frame offered to a run. -/
def offerFrame (s : State) : State := offer s 0x40000 (fill 0x00) #v[0x05, 0x06, 0x07, 0x08]

theorem offerFrame_length (s : State) : (offerFrame s).fin.length = 576 := fill_length 0x00

theorem offerFrame_inv {s : State} (h : s.Inv) : (offerFrame s).Inv := h

/-- O2. -/
theorem witness_IllegalWordsRaiseIllegalCmd :
    CmdWord.wellFormed 0x12000 = false ∧
      (issue State.reset 0x12000).pending = .command 0x12000 [] noScf :: [] := by decide

/-- O4, O6: a word that decodes, presented. -/
theorem witness_StepRunsTheDecodedCommand :
    decode 0x70009 = .ok (.enc4 9) ∧ (issue State.reset 0x70009).pending = .command 0x70009 [] noScf :: [] := by
  decide

/-- O7. -/
theorem witness_PresentedWordRuns : (20 : Nat) ≤ 20 := by decide

/-- O8, O13, O14: a command that fails, one that answers a value, one that moves the phase. -/
theorem witness_CommandSteps :
    (∃ t r, Answers (issue State.reset 0x00000) 0x00000 t r ∧ r.err ≠ 0) ∧
      (∃ t r, Answers (issue State.reset 0x40000) 0x40000 t r ∧ decode 0x40000 = .ok .produce ∧ r.err ≠ 0) ∧
      (∃ t r, Answers (issue State.reset 0x70009) 0x70009 t r ∧ r.data ≠ 0 ∧ r.err = 0 ∧
        decode 0x70009 ≠ .ok .start ∧ decode 0x70009 ≠ .ok .eos) ∧
      (∃ t r, Answers (issue State.reset 0x30000) 0x30000 t r ∧ r.err = 0 ∧ decode 0x30000 = .ok .start) ∧
      ∃ t r, Answers (issue running 0x50000) 0x50000 t r ∧ r.err = 0 ∧ decode 0x50000 = .ok .eos :=
  ⟨⟨_, _, ⟨⟨⟨_, _, _, rfl⟩, rfl⟩, rfl⟩, by decide⟩, ⟨_, _, ⟨⟨⟨_, _, _, rfl⟩, rfl⟩, rfl⟩, by decide, by decide⟩,
    ⟨_, _, ⟨⟨⟨_, _, _, rfl⟩, rfl⟩, rfl⟩, by decide, by decide, by decide, by decide⟩,
    ⟨_, _, ⟨⟨⟨_, _, _, rfl⟩, rfl⟩, rfl⟩, by decide, by decide⟩, _, _, ⟨⟨⟨_, _, _, rfl⟩, rfl⟩, rfl⟩, by decide,
    by decide⟩

/-- O9, O10, and the clauses on `rst` of O14 and O15. -/
theorem witness_ResetGivesTheTableValues :
    (resetting failed).pending = .rst :: [] ∧ failed.phase = .error ∧
      ∃ t, step (resetting failed) = .next t := ⟨rfl, rfl, _, rfl⟩

/-- O11, O12, O51. -/
theorem witness_WaitingChangesNothing :
    State.reset.pending = [] ∧ State.reset.ErrorRecorded ∧ step State.reset = .next State.reset :=
  ⟨rfl, by decide, rfl⟩

/-- O15, O51: commands in phase ERROR, one for each clause. -/
theorem witness_ErrorPhaseIsLeftByResetOnly :
    failed.phase = .error ∧ (∃ t, CommandStep (issue failed 0x30000) 0x30000 t) ∧
      accepts .error .start = false ∧ CmdWord.wellFormed 0x00000 = false ∧
      (issue failed 0x00000).pending = .command 0x00000 [] noScf :: [] ∧
      Reg.ofNumber 0x26 = none ∧ Reg.ofNumber 0x25 = some .modech :=
  ⟨rfl, ⟨_, ⟨_, _, _, rfl⟩, rfl⟩, by decide, by decide, rfl, by decide, by decide⟩

/-- O16, O17, O18, O20, O21, O22: a word of each opcode, the phases, the identities with and without 0x23. -/
theorem witness_Configuration :
    opField 0x11FFF = 1 ∧ opField 0x20005 = 2 ∧ opField 0x30000 = 3 ∧ opField 0x62100 = 6 ∧
      opField 0x70009 = 7 ∧ opField 0x80084 = 8 ∧ State.reset.phase = .config ∧ running.phase ≠ .config ∧
      (∀ k : Fin 32, State.reset.sid[k] ≠ 0x23) ∧ hashed.phase = .config ∧ ∃ k : Fin 32, hashed.sid[k] = 0x23 := by
  decide

/-- O19: SID and CTRL do change. -/
theorem witness_ConfigurationIsFrozenOutsideConfig :
    (∃ t, CommandStep (issue State.reset 0x10054) 0x10054 t ∧ t.sid ≠ State.reset.sid) ∧
      (∃ t, CommandStep (issue State.reset 0x20005) 0x20005 t ∧ t.ie ≠ State.reset.ie ∧
        t.layout ≠ State.reset.layout) ∧
      running.phase ≠ .config :=
  ⟨⟨_, ⟨⟨_, _, _, rfl⟩, rfl⟩, by decide⟩, ⟨_, ⟨⟨_, _, _, rfl⟩, rfl⟩, by decide, by decide⟩, by decide⟩

/-- O20: the ends of the four unmapped ranges; the first and last buffer bytes beyond a message. -/
theorem witness_RdregReadsTheRegisterMap :
    ((0x26 : Byte).toNat = 0x26 ∧ (0x3F : Byte).toNat = 0x3F ∧ (0x68 : Byte).toNat = 0x68 ∧
      (0x7F : Byte).toNat = 0x7F ∧ (0x92 : Byte).toNat = 0x92 ∧ (0x9F : Byte).toNat = 0x9F ∧
      0xC4 ≤ (0xC4 : Byte).toNat ∧ 0xC4 ≤ (0xFF : Byte).toNat) ∧
      held.Inv ∧ held.mlen.toNat ≤ (6 : Fin 40) ∧ held.mlen.toNat ≤ (39 : Fin 40) :=
  ⟨by decide, held_inv, by decide, by decide⟩

/-- O23: two nibbles at distance 3, the least there is (V3). -/
theorem witness_BlockCodeProperties : (0 : BitVec 4) ≠ 1 ∧ hammingDistance (bct 0) (bct 1) = 3 := by decide

/-- The identity "TEST" of 95_test_vectors.md, with template C next. -/
def station : State :=
  { State.reset with rot := .c, sid := (#v[0x54, 0x45, 0x53, 0x54] : Vector Byte 4) ++ Vector.replicate 28 (0 : Byte) }

/-- O25, O26: the parameters of this hardware, and a state for each template and each named configuration. -/
theorem witness_ConcreteMessages :
    State.reset.par.isHardware ∧ State.reset.rot = .a ∧ held.par.isHardware ∧ held.rot = .b ∧
      held.layout = .mono ∧ { held with layout := .dual }.layout = .dual ∧
      { held with layout := .joint }.layout = .joint ∧ { held with layout := .stereo }.layout = .stereo ∧
      { station with sid := State.reset.sid }.sid.toList = List.replicate 32 0 ∧ station.rot = .c ∧
      station.sid.toList = [0x54, 0x45, 0x53, 0x54] ++ List.replicate 28 0 := by decide

/-- O28: two bodies that differ only in bit 7. -/
theorem witness_ChecksumIgnoresBitSeven :
    ([0x02, 0x94] : List Byte).length = ([0x02, 0x14] : List Byte).length ∧
      ∀ j < ([0x02, 0x94] : List Byte).length, ∀ p < 7,
        (([0x02, 0x94] : List Byte).getD j 0).getLsbD p = (([0x02, 0x14] : List Byte).getD j 0).getLsbD p := by
  decide

/-- O29: the cursor at the end, inside a message, and at its last byte. -/
theorem witness_NextByteReadsAtTheCursor :
    State.reset.CursorInRange ∧ State.reset.cur = State.reset.mlen ∧ held.CursorInRange ∧ held.cur ≠ held.mlen ∧
      atEtx.CursorInRange ∧ atEtx.LengthNamesTemplate ∧ atEtx.BufferHoldsMessage ∧
      atEtx.cur.toNat + 1 = atEtx.mlen.toNat :=
  ⟨by decide, by decide, by decide, by decide, by decide, by decide, by decide +kernel, by decide⟩

/-- O30: three bytes can be read. -/
theorem witness_BuildAncTakesThreeBytes :
    held.par.bit7 = .replaceBit ∧ ∃ b15 s1 b16 s2 b17 s3, held.nextByte = .ok (b15, s1) ∧
      s1.nextByte = .ok (b16, s2) ∧ s2.nextByte = .ok (b17, s3) := by
  obtain ⟨b15, s1, h1, r1, -⟩ := State.nextByte_of_range held_inv.1
  obtain ⟨b16, s2, h2, r2, -⟩ := State.nextByte_of_range r1
  obtain ⟨b17, s3, h3, -⟩ := State.nextByte_of_range r2
  exact ⟨rfl, b15, s1, b16, s2, b17, s3, h1, h2, h3⟩

/-- O31: bit 7 of ANC[17] set, and a byte that agrees with it below bit 7. -/
theorem witness_ExpandEncodesEveryNibble :
    held.anc17.getLsbD 7 = true ∧ ∀ p < 7, (0x04 : Byte).getLsbD p = held.anc17.getLsbD p := by decide

/-- O32: a slot that is full. -/
theorem witness_InterleavePlacesEveryStreamBit : Memory.full held.fBytes (held.slot .zero) := heldSlot_full

/-- The insertion into a full slot answers. -/
theorem insertAnc_answers {s : State} (hr : s.CursorInRange) (hp : s.par = State.reset.par)
    (hf : Memory.full 576 s.slot0) : ∃ t, s.insertAnc .zero = .ok t := by
  obtain ⟨sa, hsa, -⟩ := State.buildAnc_of_range hr
  have ho : AncOnly s sa := State.buildAnc_ancOnly hsa
  have hslot : sa.slot0 = s.slot0 := by rw [ho]
  have hpar : sa.par = State.reset.par := by rw [ho]; exact hp
  obtain ⟨m, hm⟩ := interleaveCells_of_full (Nat.le_refl 0x240) sa.expand.cw
    (show Memory.full 0x240 sa.expand.slot0 from hslot ▸ hf)
  refine ⟨sa.expand.setSlot .zero m, ?_⟩
  have hb : sa.expand.fBytes = 0x240 := by
    show sa.par.fBytes = 0x240
    rw [hpar]
    rfl
  simp only [State.insertAnc, hsa, State.interleave, hb, State.slot, hm]

/-- O33, O34: the insertion answers, with the check on and with it off. -/
theorem witness_Insert :
    (∃ t, held.insertAnc .zero = .ok t) ∧ ∃ u, { held with ie := false }.insertAnc .zero = .ok u :=
  ⟨insertAnc_answers held_inv.1 rfl heldSlot_full,
    insertAnc_answers (s := { held with ie := false }) held_inv.1 rfl heldSlot_full⟩

/-- O35: no bytes, one byte short, one byte long, and a phase that is not RUN. -/
theorem witness_EmptyAndWrongLengthsBuildNothing :
    (issue running 0x40000).phase = .run ∧ (issue running 0x40000).fin.length = 0 ∧ running.fBytes = 576 ∧
      (offer running 0x40000 (List.replicate 575 0) noScf).fin.length = 575 ∧
      (offer running 0x40000 (List.replicate 577 0) noScf).fin.length = 577 ∧ State.reset.phase ≠ .run :=
  ⟨rfl, rfl, rfl, List.length_replicate, List.length_replicate, by decide⟩

/-- O36, O41: the check off. -/
theorem witness_FramesGoOutAtOnceWithoutTheCheck :
    (offerFrame running).Inv ∧ (offerFrame running).phase = .run ∧ (offerFrame running).ie = false ∧
      (offerFrame running).fin.length = (offerFrame running).fBytes :=
  ⟨offerFrame_inv running_inv, rfl, rfl, offerFrame_length running⟩

/-- O37, O41: the check on, the first frame. -/
theorem witness_TheFirstFrameIsHeldWithTheCheck :
    (offerFrame checking).Inv ∧ (offerFrame checking).phase = .run ∧ (offerFrame checking).ie = true ∧
      (offerFrame checking).fc = 0 ∧ (offerFrame checking).fin.length = (offerFrame checking).fBytes :=
  ⟨offerFrame_inv checking_inv, rfl, rfl, rfl, offerFrame_length checking⟩

/-- O38, O41: the check on, a frame held. -/
theorem witness_ThePreviousFrameGoesOutStamped :
    (offerFrame held).Inv ∧ (offerFrame held).phase = .run ∧ (offerFrame held).ie = true ∧
      0 < (offerFrame held).fc ∧ (offerFrame held).fin.length = (offerFrame held).fBytes :=
  ⟨offerFrame_inv held_inv, rfl, rfl, Nat.one_pos, offerFrame_length held⟩

/-- Two full frames offered one after the other, the second with the word `w`. -/
def offerTwo (w : CmdWord) : State :=
  { checking with pending := [.command 0x40000 (fill 0x11) noScf, .command w (fill 0x22) noScf] }

/-- O39: two `PRODUCE`, and a `PRODUCE` with the flush after it. -/
theorem witness_TwoFramesThroughTheDelay :
    (offerTwo 0x40000).Inv ∧ (offerTwo 0x50000).Inv ∧ (offerTwo 0x40000).phase = .run ∧
      (offerTwo 0x40000).ie = true ∧ (fill 0x11).length = (offerTwo 0x40000).fBytes ∧
      (fill 0x22).length = (offerTwo 0x50000).fBytes :=
  ⟨checking_inv, checking_inv, rfl, rfl, fill_length 0x11, fill_length 0x22⟩

/-- O12, O40, O45 to O50, O52: a state that meets the invariant and each of its parts, from which a step
answers. -/
theorem witness_InvKeptByEveryStep :
    (issue held 0x50000).Inv ∧ (issue held 0x50000).EmittedAllDue ∧ (issue held 0x50000).SlotsCanonical ∧
      (issue held 0x50000).SlotsLoaded ∧ (issue held 0x50000).CodewordsOfAnc ∧
      (issue held 0x50000).LowCodewordsZero ∧ (issue held 0x50000).ConfigIsFresh ∧
      (issue held 0x50000).CycleAtFrameCount ∧ (issue held 0x50000).phase = .run ∧
      (∀ k : Fin 32, (issue held 0x50000).sid[k] ≠ 0x23) ∧ ∃ t, step (issue held 0x50000) = .next t :=
  ⟨held_inv, rfl, held_inv.2.2.2.2.2.2.2.2.1, held_inv.2.2.2.2.2.2.2.1, held_inv.2.2.2.1, held_inv.2.2.1,
    held_inv.2.2.2.2.2.2.1, held_inv.2.2.2.2.2.1, rfl, by decide, _, rfl⟩

/-- O42: two instances 19 frames apart. -/
theorem witness_AncillaryDataRepeatsEvery19Frames :
    (offerFrame running).Inv ∧ (offerFrame cycled).Inv ∧ running.phase = .run ∧ cycled.phase = .run ∧
      running.sid = cycled.sid ∧ running.layout = cycled.layout ∧ running.ie = cycled.ie ∧
      running.par = cycled.par ∧ running.fc % 19 = cycled.fc % 19 ∧ running.fc ≠ cycled.fc ∧
      (offerFrame running).fin.length = (offerFrame running).fBytes ∧
      (offerFrame cycled).fin.length = (offerFrame cycled).fBytes :=
  ⟨offerFrame_inv running_inv, offerFrame_inv cycled_inv, rfl, rfl, rfl, rfl, rfl, rfl, rfl, by decide,
    offerFrame_length running, offerFrame_length cycled⟩

/-- O43: two runs that differ in the frame, the integrity field and a slot. -/
theorem witness_AudioDoesNotSteerTheBlock :
    (offerFrame cycled).phase = .run ∧ (offerFrame cycled).fin.length = (offerFrame cycled).fBytes ∧
      (offer { cycled with slot1 := filled 0x77 } 0x40000 (fill 0x66) noScf).fin.length = cycled.fBytes ∧
      (offerFrame cycled).Inv ∧ (offer { cycled with slot1 := filled 0x77 } 0x40000 (fill 0x66) noScf).Inv ∧
      { offerFrame cycled with slot0 := [], slot1 := [], pending := [], responses := [] } =
        { offer { cycled with slot1 := filled 0x77 } 0x40000 (fill 0x66) noScf with
          slot0 := [], slot1 := [], pending := [], responses := [] } := by
  obtain ⟨h1, h2, h3, h4, h5, h6, h7, h8, h9, h10, h11, h12⟩ := cycled_inv
  exact ⟨rfl, offerFrame_length cycled, fill_length 0x66, offerFrame_inv cycled_inv,
    ⟨h1, h2, h3, h4, h5, h6, h7, ⟨fun _ => filled_full 0x00, fun _ => ⟨filled_full 0x00, filled_full 0x77⟩⟩,
      ⟨h9.1, filled_wf 0x77, filled_within 0x77⟩, h10, h11, h12⟩, rfl⟩

end Sys2Proof.Tests
end

section
/-! The reset table (R27), row by row, and the step on `rst` (70_reset_and_hazards.md R185). -/

namespace Sys2Proof.Machine

/-! ### The rows of the reset table -/

@[simp] theorem State.applyReset_errcode (s : State) : s.applyReset.errcode = 0 := rfl

@[simp] theorem State.applyReset_sid_getElem (s : State) (k : Fin 32) : s.applyReset.sid[k] = 0 :=
  Vector.getElem_replicate k.isLt

@[simp] theorem State.applyReset_ie (s : State) : s.applyReset.ie = false := rfl

@[simp] theorem State.applyReset_layout (s : State) : s.applyReset.layout = .mono := rfl

@[simp] theorem State.applyReset_ctrlByte (s : State) : s.applyReset.ctrlByte = 0 := by
  simp only [State.ctrlByte, applyReset_ie, applyReset_layout]
  decide

@[simp] theorem State.applyReset_msg_getElem (s : State) (k : Fin 40) : s.applyReset.msg[k] = 0 :=
  Vector.getElem_replicate k.isLt

@[simp] theorem State.applyReset_mlen (s : State) : s.applyReset.mlen = 0 := rfl

@[simp] theorem State.applyReset_cur (s : State) : s.applyReset.cur = 0 := rfl

@[simp] theorem State.applyReset_rot (s : State) : s.applyReset.rot = .a := rfl

@[simp] theorem State.applyReset_fc (s : State) : s.applyReset.fc = 0 := rfl

@[simp] theorem State.applyReset_slot (s : State) (i : SlotId) : s.applyReset.slot i = [] := by
  cases i <;> rfl

/-- An empty slot lists no byte, and an unlisted byte holds no value (R22). -/
@[simp] theorem State.applyReset_byteAt (s : State) (i : SlotId) (o : Nat) :
    s.applyReset.byteAt i o = none := by
  rw [State.byteAt, applyReset_slot]
  rfl

/-- `ANC[15..17]` are reset to 0; every other index reads 0 in any state (R23). -/
@[simp] theorem State.applyReset_ancByte (s : State) (k : Nat) : s.applyReset.ancByte k = 0 := by
  unfold State.ancByte
  split_ifs <;> rfl

@[simp] theorem State.applyReset_cw_getElem (s : State) (k : Fin 36) : s.applyReset.cw[k] = 0 :=
  Vector.getElem_replicate k.isLt

/-! ### The step on `rst` -/

/-- The state right after reset is what `rst` makes of it, so it has the values of the rows above. -/
@[simp] theorem State.reset_applyReset : State.reset.applyReset = State.reset := rfl

theorem step_of_pending_rst {s : State} {rest : List HostEvent} (h : s.pending = .rst :: rest) :
    step s = .next s.applyReset := by
  simp [step, State.presented, h]

/-- Settles O9: the rows hold of `s.applyReset` for every `s`, which covers `State.reset` and the step. -/
theorem resetGivesTheTableValues : Obligations.ResetGivesTheTableValues := by
  unfold Obligations.ResetGivesTheTableValues
  intro table
  have applyReset_table (s : State) : table s.applyReset :=
    ⟨s.applyReset_phase, s.applyReset_errcode, s.applyReset_sid_getElem, s.applyReset_ctrlByte, s.applyReset_ie,
      s.applyReset_layout, s.applyReset_msg_getElem, s.applyReset_mlen, s.applyReset_cur,
      congrArg Template.code s.applyReset_rot, s.applyReset_fc, s.applyReset_byteAt,
      fun k _ => s.applyReset_ancByte k, s.applyReset_cw_getElem⟩
  constructor
  · rw [← State.reset_applyReset]
    exact applyReset_table State.reset
  · intro s rest hp
    exact ⟨s.applyReset, step_of_pending_rst hp, applyReset_table s⟩

end Sys2Proof.Machine
end

section
/-! Which words are commands (30_encoding.md R61, R64, R65): the match and mask rows and the field checks come to one
condition on the three fields. And the one response of a command (R63). -/

namespace Sys2Proof

/-! ### Words and masks, field by field -/

theorem mkWord_and (op mop : BitVec 4) (a ma d md : Byte) :
    mkWord op a d &&& mkWord mop ma md = mkWord (op &&& mop) (a &&& ma) (d &&& md) := by
  show (op ++ a ++ d : BitVec (4 + 8 + 8)) &&& (mop ++ ma ++ md : BitVec (4 + 8 + 8)) = _
  rw [BitVec.and_append, BitVec.and_append]
  rfl

theorem mkWord_inj {op op' : BitVec 4} {a a' d d' : Byte} :
    mkWord op a d = mkWord op' a' d' ↔ op = op' ∧ a = a' ∧ d = d' := by
  constructor
  · intro h
    exact ⟨by simpa using congrArg opField h, by simpa using congrArg aField h, by simpa using congrArg dField h⟩
  · rintro ⟨rfl, rfl, rfl⟩
    rfl

/-- A row takes a word field by field. -/
theorem OpcodeRow.takes_iff_fields (r : OpcodeRow) (w : CmdWord) :
    r.takes w = true ↔ opField w &&& opField r.mask = opField r.pattern ∧
      aField w &&& aField r.mask = aField r.pattern ∧ dField w &&& dField r.mask = dField r.pattern := by
  rw [OpcodeRow.takes, beq_iff_eq, ← mkWord_inj, ← mkWord_and, mkWord_fields, mkWord_fields, mkWord_fields]

/-- A mask of all bits from `k` on asks for a value below `2 ^ k`. -/
theorem and_highMask_eq_zero_iff {n : Nat} (x : BitVec n) (k : Nat) :
    x &&& (BitVec.allOnes n <<< k) = 0 ↔ x.toNat < 2 ^ k := by
  constructor
  · intro h
    refine Nat.lt_pow_two_of_testBit _ fun i hk => ?_
    show x.getLsbD i = false
    by_cases hi : i < n
    · have := congrArg (fun y => y.getLsbD i) h
      simpa [hi, Nat.not_lt.2 hk, show i - k < n by omega] using this
    · exact BitVec.getLsbD_of_ge x i (by omega)
  · intro h
    apply BitVec.eq_of_getLsbD_eq
    intro i hi
    by_cases hk : i < k
    · simp [hk]
    · have : x.getLsbD i = false :=
        Nat.testBit_lt_two_pow (h.trans_le (Nat.pow_le_pow_right (by decide) (by omega)))
      simp [this]

/-! ### The one condition -/

/-- The rows of R64 read as conditions on the fields: the opcode, and what the third column asks of `a` and `d`. -/
def RowFields (op : BitVec 4) (a d : Byte) : Prop :=
  (op = 1 ∧ a.toNat < 32) ∨ (op = 2 ∧ a = 0 ∧ d.toNat < 8) ∨ (op = 3 ∧ a = 0 ∧ d = 0) ∨
    (op = 4 ∧ a = 0 ∧ d = 0) ∨ (op = 5 ∧ a = 0 ∧ d = 0) ∨ (op = 6 ∧ d = 0) ∨
    (op = 7 ∧ a = 0 ∧ d.toNat < 16) ∨ (op = 8 ∧ a = 0)

theorem exists_row_takes_iff (w : CmdWord) :
    (∃ r ∈ opcodeRows, r.takes w = true) ↔ RowFields (opField w) (aField w) (dField w) := by
  have allOp (x : BitVec 4) : x &&& 0xF#4 = x := BitVec.and_allOnes
  have all (x : Byte) : x &&& 0xFF#8 = x := BitVec.and_allOnes
  have high5 (x : Byte) : x &&& 0xE0#8 = 0#8 ↔ x.toNat < 32 := and_highMask_eq_zero_iff x 5
  have high3 (x : Byte) : x &&& 0xF8#8 = 0#8 ↔ x.toNat < 8 := and_highMask_eq_zero_iff x 3
  have high4 (x : Byte) : x &&& 0xF0#8 = 0#8 ↔ x.toNat < 16 := and_highMask_eq_zero_iff x 4
  simp only [opcodeRows, List.exists_mem_cons_iff, List.not_mem_nil, false_and, exists_false, or_false,
    OpcodeRow.takes_iff_fields, RowFields]
  generalize opField w = op, aField w = a, dField w = d
  simp [opField, aField, dField, allOp, all, high5, high3, high4]

theorem formatOf_none_or_opcode (op : BitVec 4) :
    formatOf op = none ∨ op = 1 ∨ op = 2 ∨ op = 3 ∨ op = 4 ∨ op = 5 ∨ op = 6 ∨ op = 7 ∨ op = 8 := by
  revert op
  decide

theorem wellFormed_iff (w : CmdWord) :
    w.wellFormed = true ↔ RowFields (opField w) (aField w) (dField w) := by
  rw [← mkWord_fields w, wellFormed_mkWord, mkWord_fields]
  generalize opField w = op, aField w = a, dField w = d
  obtain hop | rfl | rfl | rfl | rfl | rfl | rfl | rfl | rfl := formatOf_none_or_opcode op
  · rw [hop]
    simp only [Bool.false_eq_true, false_iff]
    rintro (⟨rfl, -⟩ | ⟨rfl, -⟩ | ⟨rfl, -⟩ | ⟨rfl, -⟩ | ⟨rfl, -⟩ | ⟨rfl, -⟩ | ⟨rfl, -⟩ | ⟨rfl, -⟩) <;> cases hop
  all_goals simp [RowFields, formatOf, formatOk, operandOk]

/-! ### The decoder -/

theorem decode_ok_iff_exists_row (w : CmdWord) :
    (∃ i, decode w = .ok i) ↔ ∃ r ∈ opcodeRows, r.takes w = true := by
  rw [← List.find?_isSome (p := fun r : OpcodeRow => r.takes w), decode]
  cases opcodeRows.find? (fun r => r.takes w) <;> simp

/-- Match and mask (R64, R70) accepts what the field checks (R61, R65) accept. -/
theorem decode_ok_iff_wellFormed (w : CmdWord) : (∃ i, decode w = .ok i) ↔ w.wellFormed = true := by
  rw [decode_ok_iff_exists_row, exists_row_takes_iff, wellFormed_iff]

theorem decode_error_of_not_wellFormed {w : CmdWord} (h : w.wellFormed = false) : ∃ e, decode w = .error e := by
  cases hd : decode w with
  | error e => exact ⟨e, rfl⟩
  | ok i => simp [(decode_ok_iff_wellFormed w).1 ⟨i, hd⟩] at h

end Sys2Proof

namespace Sys2Proof.Machine

/-- `raise E` written out (60_exceptions.md R168). -/
theorem State.raise_eq (s : State) (e : Err) :
    s.raise e = { s with
      errcode := if s.phase = .error then s.errcode else e.code
      phase := .error
      pending := s.pending.tail
      responses := s.responses ++ [{ err := e.code, data := 0, out := none }] } := by
  unfold State.raise State.recordError
  split
  · next hp => simp [State.respond, ← hp]
  · rfl

theorem step_of_pending_illegal {s : State} {w : CmdWord} {fin : List Byte} {scf : Vector Byte 4}
    {rest : List HostEvent} {e : IllegalWord} (hp : s.pending = .command w fin scf :: rest)
    (hd : decode w = .error e) : step s = .next (s.raise .illegalCmd) := by
  simp [step, State.presented, hp, hd]

/-- Settles O2: the decoder and the field checks accept the same words (`decode_ok_iff_wellFormed`), and a word that
does not decode is answered by `State.raise`. -/
theorem illegalWordsRaiseIllegalCmd : Obligations.IllegalWordsRaiseIllegalCmd := by
  unfold Obligations.IllegalWordsRaiseIllegalCmd
  refine ⟨decode_ok_iff_wellFormed, ?_, by decide, by decide⟩
  intro w s fin scf rest hw hp
  obtain ⟨e, hd⟩ := decode_error_of_not_wellFormed hw
  rw [step_of_pending_illegal hp hd, State.raise_eq, hp]
  rfl

/-! ### What a built frame leaves alone, and how long an emitted frame is -/

/-- `t` is `s` after one built frame but for what building writes (43_frame_scheduler.md R131): the message cycle, the
slots, the ancillary bytes and the codewords. -/
def BuildOnly (s t : State) : Prop :=
  t = { s with
    msg := t.msg, mlen := t.mlen, cur := t.cur, rot := t.rot, fc := s.fc + 1
    slot0 := t.slot0, slot1 := t.slot1, anc15 := t.anc15, anc16 := t.anc16, anc17 := t.anc17, cw := t.cw }

theorem BuildOnly.pending {s t : State} (h : BuildOnly s t) : t.pending = s.pending := by
  unfold BuildOnly at h
  rw [h]

theorem BuildOnly.responses {s t : State} (h : BuildOnly s t) : t.responses = s.responses := by
  unfold BuildOnly at h
  rw [h]

theorem AncOnly.fBytes {s t : State} (h : AncOnly s t) : t.fBytes = s.fBytes := by
  unfold AncOnly at h
  rw [h]
  rfl

theorem State.loadAndInsert_ok {s t : State} {fin : List Byte} (hl : fin.length = s.fBytes)
    (h : s.loadAndInsert fin = .ok t) :
    ∃ sa m, s.buildAnc = .ok sa ∧ t = sa.expand.setSlot s.currentSlot m := by
  rw [State.loadAndInsert_eq s hl] at h
  split at h
  · cases h
  · next sa hsa =>
    split at h
    · cases h
    · next m hm =>
      cases h
      exact ⟨sa, m, hsa, rfl⟩

/-- Stamping and emitting write at most one slot. -/
theorem State.stampAndEmit_setSlot {s t : State} {scf : Vector Byte 4} {out : Option Frame}
    (h : s.stampAndEmit scf = .ok (out, t)) : ∃ i m, t = s.setSlot i m := by
  obtain ⟨-, ht, -⟩ | ⟨-, ht, -⟩ := State.stampAndEmit_ok h
  · exact ⟨.zero, s.slot0, ht⟩
  · exact ⟨_, _, ht⟩

theorem State.buildFrame_buildOnly {s t : State} {fin : List Byte} {scf : Vector Byte 4} {out : Option Frame}
    (hl : fin.length = s.fBytes) (h : s.buildFrame fin scf = .ok (out, t)) : BuildOnly s t := by
  obtain ⟨s1, s2, hload, hstamp, rfl⟩ := State.buildFrame_ok h
  obtain ⟨sa, m, hsa, rfl⟩ := State.loadAndInsert_ok hl hload
  obtain ⟨i, m', rfl⟩ := State.stampAndEmit_setSlot hstamp
  have hanc : AncOnly s sa := State.buildAnc_ancOnly hsa
  unfold AncOnly at hanc
  unfold BuildOnly
  rw [hanc]
  cases i <;> cases s.currentSlot <;> rfl

/-- An emitted frame is a whole slot. -/
theorem State.stampAndEmit_length {s t : State} {scf : Vector Byte 4} {f : Frame}
    (h : s.stampAndEmit scf = .ok (some f, t)) : f.length = s.fBytes := by
  have hread (u : State) (i : SlotId) {g : Frame} (hg : u.memRead i 0 s.fBytes = .ok g) : g.length = s.fBytes :=
    (Memory.read_ok hg).2.1
  obtain ⟨-, -, g, hfg, hg⟩ | ⟨-, -, ⟨-, hno⟩ | ⟨-, g, hfg, hg⟩⟩ := State.stampAndEmit_ok h
  · cases hfg
    exact hread s _ hg
  · cases hno
  · cases hfg
    exact hread t _ hg

theorem State.buildFrame_length {s t : State} {fin : List Byte} {scf : Vector Byte 4} {f : Frame}
    (hl : fin.length = s.fBytes) (h : s.buildFrame fin scf = .ok (some f, t)) : f.length = s.fBytes := by
  obtain ⟨s1, s2, hload, hstamp, rfl⟩ := State.buildFrame_ok h
  obtain ⟨sa, m, hsa, rfl⟩ := State.loadAndInsert_ok hl hload
  rw [State.stampAndEmit_length hstamp, State.setSlot_fBytes]
  exact (State.buildAnc_ancOnly hsa).fBytes

/-! ### The one response of a command -/

/-- The form R63 gives to a response `r` of the command word `w`, where a frame has `n` bytes. -/
def ResponseFits (n : Nat) (w : CmdWord) (r : Response) : Prop :=
  r.err.toNat ≤ 5 ∧ (r.err ≠ 0 → r.data = 0 ∧ r.out = none) ∧
    (r.data ≠ 0 → ∃ i, decode w = .ok i ∧ ((∃ a, i = .rdreg a) ∨ (∃ v, i = .enc4 v) ∨ ∃ b, i = .enc8 b)) ∧
    ∀ f, r.out = some f → f.length = n ∧ (decode w = .ok .produce ∨ decode w = .ok .eos)

theorem responseFits_error (n : Nat) (w : CmdWord) (e : Err) :
    ResponseFits n w { err := e.code, data := 0, out := none } :=
  ⟨e.code_le, fun _ => ⟨rfl, rfl⟩, fun h => absurd rfl h, fun _ h => nomatch h⟩

theorem responseFits_done (n : Nat) (w : CmdWord) : ResponseFits n w .done :=
  ⟨Nat.zero_le 5, fun h => absurd rfl h, fun h => absurd rfl h, fun _ h => nomatch h⟩

theorem responseFits_value (n : Nat) {w : CmdWord} {i : Instr} (v : BitVec 16) (hd : decode w = .ok i)
    (hi : (∃ a, i = .rdreg a) ∨ (∃ v, i = .enc4 v) ∨ ∃ b, i = .enc8 b) : ResponseFits n w (.value v) :=
  ⟨Nat.zero_le 5, fun h => absurd rfl h, fun _ => ⟨i, hd, hi⟩, fun _ h => nomatch h⟩

theorem responseFits_frame {n : Nat} {w : CmdWord} {out : Option Frame} (hl : ∀ f, out = some f → f.length = n)
    (hd : decode w = .ok .produce ∨ decode w = .ok .eos) : ResponseFits n w (.frame out) :=
  ⟨Nat.zero_le 5, fun h => absurd rfl h, fun h => absurd rfl h, fun f hf => ⟨hl f hf, hd⟩⟩

/-- `t` is reached from `s` by consuming the event with one response that fits. -/
def RespondsOnce (s : State) (w : CmdWord) (t : State) : Prop :=
  t.pending = s.pending.tail ∧ ∃ r, t.responses = s.responses ++ [r] ∧ ResponseFits s.fBytes w r

/-- A command that ends with `respond` responds once, when what it did before left the host's side alone. -/
theorem respondsOnce_respond {s u : State} {w : CmdWord} {r : Response} (hp : u.pending = s.pending)
    (hr : u.responses = s.responses) (hfit : ResponseFits s.fBytes w r) : RespondsOnce s w (u.respond r) :=
  ⟨congrArg List.tail hp, r, congrArg (· ++ [r]) hr, hfit⟩

theorem respondsOnce_raise (s : State) (w : CmdWord) (e : Err) : RespondsOnce s w (s.raise e) :=
  ⟨s.raise_pending e, _, s.raise_responses e, responseFits_error _ w e⟩

theorem exec_respondsOnce {s t : State} {w : CmdWord} {i : Instr} (hd : decode w = .ok i)
    (h : exec i s = .next t) : RespondsOnce s w t := by
  obtain hraise | hvalue | hwrsid | hwrctl | hstart | hproduce | heos | hbuilt := exec_next h
  · obtain ⟨e, rfl⟩ := hraise
    exact respondsOnce_raise s w e
  · obtain ⟨v, rfl, hi⟩ := hvalue
    exact respondsOnce_respond rfl rfl (responseFits_value _ v hd hi)
  · obtain ⟨k, d, -, -, rfl⟩ := hwrsid
    exact respondsOnce_respond rfl rfl (responseFits_done _ w)
  · obtain ⟨l, e, -, -, rfl⟩ := hwrctl
    exact respondsOnce_respond rfl rfl (responseFits_done _ w)
  · obtain ⟨-, -, -, rfl⟩ := hstart
    exact respondsOnce_respond rfl rfl (responseFits_done _ w)
  · obtain ⟨-, -, -, rfl⟩ := hproduce
    exact respondsOnce_respond rfl rfl (responseFits_done _ w)
  · obtain ⟨-, -, -, rfl⟩ := heos
    exact respondsOnce_respond rfl rfl (responseFits_done _ w)
  · obtain ⟨out, u, -, hl, hb, hend⟩ := hbuilt
    have hu : BuildOnly s u := State.buildFrame_buildOnly hl hb
    have hlength : ∀ f, out = some f → f.length = s.fBytes := by
      rintro f rfl
      exact State.buildFrame_length hl hb
    obtain ⟨rfl, rfl⟩ | ⟨rfl, rfl⟩ := hend
    · exact respondsOnce_respond hu.pending hu.responses (responseFits_frame hlength (.inl hd))
    · exact respondsOnce_respond hu.pending hu.responses (responseFits_frame hlength (.inr hd))

/-- What the step on a command word is: `ILLEGAL_CMD`, or the command that the word decodes to. -/
theorem CommandStep.illegal_or_exec {s t : State} {w : CmdWord} (h : CommandStep s w t) :
    (∃ e, decode w = .error e ∧ t = s.raise .illegalCmd) ∨ ∃ i, decode w = .ok i ∧ exec i s = .next t := by
  obtain ⟨⟨fin, scf, rest, hp⟩, hstep⟩ := h
  obtain ⟨hn, -⟩ | ⟨_, hrst, -⟩ | ⟨w', _, _, _, e, hp', hd, rfl⟩ | ⟨w', _, _, _, i, hp', hd, hexec⟩ := step_next hstep
  · simp [hp] at hn
  · simp [hp] at hrst
  · obtain ⟨⟨rfl, -, -⟩, -⟩ : (w = w' ∧ _) ∧ _ := by simpa [hp] using hp'
    exact .inl ⟨e, hd, rfl⟩
  · obtain ⟨⟨rfl, -, -⟩, -⟩ : (w = w' ∧ _) ∧ _ := by simpa [hp] using hp'
    exact .inr ⟨i, hd, hexec⟩

/-- Settles O8: every way a command can end is a `respond` after work that left the host's side alone. -/
theorem everyCommandGivesOneResponse : Obligations.EveryCommandGivesOneResponse := by
  unfold Obligations.EveryCommandGivesOneResponse
  intro s t w h
  obtain ⟨e, -, rfl⟩ | ⟨i, hd, hexec⟩ := h.illegal_or_exec
  · exact respondsOnce_raise s w .illegalCmd
  · exact exec_respondsOnce hd hexec

end Sys2Proof.Machine
end

section
/-! The block code (40_block_code.md): the properties of the table (R81), and the commands that read it (R83, R84). -/

namespace Sys2Proof

/-! ### Words by their three fields -/

/-- The decoder accepts a word by its fields (30_encoding.md R61, R64). -/
theorem decode_ok_iff_fields (w : CmdWord) :
    (∃ i, decode w = .ok i) ↔ RowFields (opField w) (aField w) (dField w) :=
  (decode_ok_iff_exists_row w).trans (exists_row_takes_iff w)

/-- The fields at their places in the word: `op` in bits 19:16, `a` in bits 15:8, `d` in bits 7:0 (R60). -/
theorem mkWord_eq_or (op : BitVec 4) (a d : Byte) :
    mkWord op a d = op.setWidth 20 <<< 16 ||| a.setWidth 20 <<< 8 ||| d.setWidth 20 := by
  apply BitVec.eq_of_getLsbD_eq
  intro i hi
  rw [mkWord_getLsbD]
  by_cases hd : i < 8
  · simp [hi, hd, show i < 16 by omega]
  · by_cases ha : i < 16
    · simp [hi, hd, ha, show i - 8 < 8 by omega, d.getLsbD_of_ge i (by omega)]
    · simp [hi, hd, ha, show ¬ i - 8 < 8 by omega, show i - 8 - 8 = i - 16 by omega,
        a.getLsbD_of_ge (i - 8) (by omega), d.getLsbD_of_ge i (by omega)]

/-- The word of a command whose format uses `d` only (R61). -/
theorem mkWord_zero_eq_or (op : BitVec 4) (d : Byte) :
    mkWord op 0 d = op.setWidth 20 <<< 16 ||| d.setWidth 20 := by
  rw [mkWord_eq_or]
  simp

end Sys2Proof

namespace Sys2Proof.Machine

/-! ### The Hamming distance -/

/-- The distance of two codewords is Mathlib's Hamming distance of their bits. -/
theorem hammingDistance_eq_hammingDist (x y : Codeword) :
    hammingDistance x y = hammingDist (fun k : Fin 7 => x.getLsbD k) (fun k : Fin 7 => y.getLsbD k) := by
  have hbits (k : Fin 7) : (x.getLsbD k != y.getLsbD k) = decide (x.getLsbD k ≠ y.getLsbD k) :=
    Bool.eq_iff_iff.2 (by simp)
  rw [hammingDistance, ← List.map_coe_finRange_eq_range, List.filter_map, List.length_map]
  exact congrArg (fun p => ((List.finRange 7).filter p).length) (funext hbits)

theorem hammingDistance_triangle_left (x y z : Codeword) :
    hammingDistance x y ≤ hammingDistance z x + hammingDistance z y := by
  simp only [hammingDistance_eq_hammingDist]
  exact hammingDist_triangle_left _ _ _

@[simp] theorem hammingDistance_self (x : Codeword) : hammingDistance x x = 0 := by
  rw [hammingDistance_eq_hammingDist, hammingDist_self]

/-- The distance is the number of bits set in the exclusive or. -/
theorem hammingDistance_eq_xor (x y : Codeword) : hammingDistance x y = hammingDistance (x ^^^ y) 0 := by
  simp [hammingDistance]

theorem hammingDistance_twoPow (k : Fin 7) : hammingDistance (BitVec.twoPow 7 k) 0 = 1 := by
  revert k
  decide

theorem hammingDistance_flipBit (x : Codeword) (k : Fin 7) :
    hammingDistance (x ^^^ BitVec.twoPow 7 k) x = 1 := by
  rw [hammingDistance_eq_xor, BitVec.xor_comm x, BitVec.xor_assoc, BitVec.xor_self, BitVec.xor_zero,
    hammingDistance_twoPow]

/-! ### The properties of the table -/

/-- The table is linear (R81 (c)). -/
theorem bct_xor (u v : BitVec 4) : bct (u ^^^ v) = bct u ^^^ bct v := by
  revert u v
  decide

theorem three_le_weight_bct {v : BitVec 4} (h : v ≠ 0) : 3 ≤ hammingDistance (bct v) 0 := by
  revert v
  decide

/-- For a linear code the least distance is the least weight (R81 (b)). -/
theorem three_le_hammingDistance_bct {u v : BitVec 4} (h : u ≠ v) : 3 ≤ hammingDistance (bct u) (bct v) := by
  rw [hammingDistance_eq_xor, ← bct_xor]
  exact three_le_weight_bct (mt BitVec.xor_eq_zero_iff.1 h)

/-- Different inputs have different codewords (R81 (a)). -/
theorem bct_injective : Function.Injective bct := by
  intro u v huv
  by_contra hne
  have h3 : 3 ≤ hammingDistance (bct u) (bct v) := three_le_hammingDistance_bct hne
  simp [huv] at h3

/-- A word at distance 1 from a codeword is at distance 2 or more from every other: they are 3 apart (R81 (b)). -/
theorem flipBit_nearest {u v : BitVec 4} (k : Fin 7) (h : u ≠ v) :
    hammingDistance (bct v ^^^ BitVec.twoPow 7 k) (bct v) < hammingDistance (bct v ^^^ BitVec.twoPow 7 k) (bct u) := by
  have hflip := hammingDistance_flipBit (bct v) k
  have htriangle := hammingDistance_triangle_left (bct u) (bct v) (bct v ^^^ BitVec.twoPow 7 k)
  have hapart := three_le_hammingDistance_bct h
  omega

/-- The input stands at bits 2, 4, 5, 6 of its codeword (R81 (d)). -/
theorem bct_systematic (v : BitVec 4) :
    v.getLsbD 0 = (bct v).getLsbD 2 ∧ v.getLsbD 1 = (bct v).getLsbD 4 ∧
      v.getLsbD 2 = (bct v).getLsbD 5 ∧ v.getLsbD 3 = (bct v).getLsbD 6 := by
  revert v
  decide

/-- `15 - v` is the complement of `v`, and the codeword of 15 is all ones (R81 (e)). -/
theorem bct_complement (v : BitVec 4) : bct (15 - v) = bct v ^^^ 0x7F :=
  calc bct (15 - v) = bct (v ^^^ 15) := congrArg bct ((BitVec.allOnes_sub_eq_not v).trans BitVec.xor_allOnes.symm)
    _ = bct v ^^^ bct 15 := bct_xor v 15
    _ = bct v ^^^ 0x7F := rfl

/-- Settles O23: linearity turns distances into weights, and with the weight of every codeword but `BCT[0]` at least 3
the rest of (a) and (b) follows. -/
theorem blockCodeProperties : Obligations.BlockCodeProperties := by
  unfold Obligations.BlockCodeProperties
  exact ⟨fun u v h => ⟨bct_injective.ne h, three_le_hammingDistance_bct h⟩, fun u v k h => flipBit_nearest k h,
    bct_xor, rfl, rfl, rfl, rfl, bct_systematic, bct_complement⟩

/-! ### `ENC4` and `ENC8` -/

/-- Answering a value, written out (30_encoding.md R63): the event is consumed and no element of the block changes. -/
theorem State.respond_value_eq (s : State) (v : BitVec 16) :
    s.respond (.value v) = { s with
      pending := s.pending.tail
      responses := s.responses ++ [{ err := 0, data := v, out := none }] } := rfl

theorem exec_enc4 (v : BitVec 4) (s : State) :
    exec (.enc4 v) s = .next (s.respond (.value ((bct v).setWidth 16))) := rfl

theorem exec_enc8 (b : Byte) (s : State) :
    exec (.enc8 b) s = .next (s.respond (.value (packPair (encByte b)))) := rfl

/-- The table of R80, value by value. -/
theorem bct_setWidth_eq_getD (v : BitVec 4) :
    (bct v).setWidth 16 = [0x00, 0x07, 0x19, 0x1E, 0x2A, 0x2D, 0x33, 0x34, 0x4B, 0x4C, 0x52, 0x55, 0x61, 0x66, 0x78,
      0x7F].getD v.toNat 0 := by
  revert v
  decide

/-- Settles O21: the row of `ENC4` among the rows of the decoder, and the table value by value. -/
theorem enc4LooksUpTheTable : Obligations.Enc4LooksUpTheTable := by
  unfold Obligations.Enc4LooksUpTheTable
  constructor
  · intro w hop
    simp [decode_ok_iff_fields, RowFields, hop]
  · intro v s
    constructor
    · rw [encode, mkWord_zero_eq_or, BitVec.setWidth_setWidth (by decide)]
      rfl
    · rw [exec_enc4, bct_setWidth_eq_getD, State.respond_value_eq]

theorem lowNibble_eq_ofNat (b : Byte) : lowNibble b = BitVec.ofNat 4 (b.toNat % 16) := by
  apply BitVec.eq_of_toNat_eq
  simp [lowNibble]

theorem highNibble_eq_ofNat (b : Byte) : highNibble b = BitVec.ofNat 4 (b.toNat / 16) := by
  apply BitVec.eq_of_toNat_eq
  simp [highNibble, Nat.shiftRight_eq_div_pow]

/-- Concatenation is addition after a shift by the width of the low part. -/
theorem toNat_append_eq_add {m n : Nat} (x : BitVec m) (y : BitVec n) :
    (x ++ y).toNat = 2 ^ n * x.toNat + y.toNat := by
  rw [BitVec.toNat_append, ← Nat.shiftLeft_add_eq_or_of_lt y.isLt, Nat.shiftLeft_eq, Nat.mul_comm]

/-- The pair packed as a number: each codeword has a byte of its own (R84). -/
theorem packPair_eq_ofNat (lo hi : Codeword) :
    packPair (lo, hi) = BitVec.ofNat 16 (256 * hi.toNat + lo.toNat) := by
  have hlo : lo.toNat < 128 := lo.isLt
  have hhi : hi.toNat < 128 := hi.isLt
  apply BitVec.eq_of_toNat_eq
  simp only [packPair, toNat_append_eq_add, BitVec.ofNat_eq_ofNat, BitVec.toNat_ofNat]
  omega

/-- Settles O22: the row of `ENC8` among the rows of the decoder, and the packing of the two codewords as a number. -/
theorem enc8PacksTwoCodewords : Obligations.Enc8PacksTwoCodewords := by
  unfold Obligations.Enc8PacksTwoCodewords
  constructor
  · intro w hop
    simp [decode_ok_iff_fields, RowFields, hop]
  · intro b s
    constructor
    · rw [encode, mkWord_zero_eq_or]
      rfl
    · rw [exec_enc8, encByte, packPair_eq_ofNat, lowNibble_eq_ofNat, highNibble_eq_ofNat, State.respond_value_eq]

end Sys2Proof.Machine
end

section
/-! The message cycle (41_control_message_cycle.md): the checksum and its digits as numbers (R95, R96), the messages
that `GenMsg` builds (R97, R102), and the bytes that `NextByte` reads (R98). -/

namespace Sys2Proof.Machine

/-! ### The checksum and its digits as numbers -/

theorem and_0x7F_toNat (b : Byte) : (b &&& 0x7F).toNat = b.toNat % 128 := by
  rw [BitVec.toNat_and]
  exact Nat.and_two_pow_sub_one_eq_mod b.toNat 7

/-- `Checksum(body)` as a number (R95). -/
theorem checksum_toNat (ck : CkStart) (body : List Byte) :
    (checksum ck body).toNat = ((body.drop (ckIndex ck)).map (fun b => b.toNat % 128)).sum % 256 := by
  simp only [checksum, lowBitsSum, and_0x7F_toNat, BitVec.toNat_ofNat]
  exact Nat.mod_mod _ 256

/-- `HexDigit(x)` with upper-case letters, on numbers (R96). -/
def upperHexDigit (x : Nat) : Nat := if x ≤ 9 then 0x30 + x else 0x41 + (x - 10)

theorem hexDigit_true_toNat (x : BitVec 4) : (hexDigit true x).toNat = upperHexDigit x.toNat := by
  revert x
  decide

/-- A hex digit of either case has the value it is the digit of (R96). -/
@[simp] theorem hexValue_hexDigit (upper : Bool) (x : BitVec 4) : hexValue (hexDigit upper x) = x.toNat := by
  revert upper x
  decide

theorem lowNibble_toNat (b : Byte) : (lowNibble b).toNat = b.toNat % 16 := by
  rw [lowNibble_eq_ofNat, BitVec.toNat_ofNat]
  exact Nat.mod_mod _ 16

theorem highNibble_toNat (b : Byte) : (highNibble b).toNat = b.toNat / 16 := by
  rw [highNibble_eq_ofNat, BitVec.toNat_ofNat]
  omega

/-- The two digits of a byte, low nibble first, give the byte back (R96). -/
theorem hexValue_digits (upper : Bool) (b : Byte) :
    hexValue (hexDigit upper (lowNibble b)) + 16 * hexValue (hexDigit upper (highNibble b)) = b.toNat := by
  rw [hexValue_hexDigit, hexValue_hexDigit, lowNibble_toNat, highNibble_toNat]
  exact Nat.mod_add_div b.toNat 16

/-! ### A message by its parts -/

/-- A message is its body, the two digits of its checksum with the low nibble first, and ETX (R91). -/
theorem message_eq (p : Params) (body : List Byte) :
    message p body = body ++ [hexDigit p.hexUpper (lowNibble (checksum p.ckStart body)),
      hexDigit p.hexUpper (highNibble (checksum p.ckStart body)), etx] := rfl

/-- With this hardware's parameters, a message as numbers (R91, R97). -/
theorem message_map_toNat {p : Params} (hp : p.isHardware) (body : List Byte) :
    (message p body).map BitVec.toNat = body.map BitVec.toNat ++
      [upperHexDigit ((checksum .typeByte body).toNat % 16), upperHexDigit ((checksum .typeByte body).toNat / 16),
        0x03] := by
  have hck : p.ckStart = .typeByte := by rw [hp]; rfl
  have hup : p.hexUpper = true := by rw [hp]; rfl
  simp [message_eq, hck, hup, hexDigit_true_toNat, lowNibble_toNat, highNibble_toNat, etx]

/-- The frame length has no part in a message. -/
theorem message_hardware {p : Params} (hp : p.isHardware) (body : List Byte) :
    message p body = message (Params.hardware 0) body := by
  rw [hp]
  rfl

/-- The last byte of a message is ETX (R91). -/
theorem message_getD_last (p : Params) (body : List Byte) : (message p body).getD (body.length + 2) 0 = etx := by
  simp [message_eq]

/-- The first byte of the next message is STX (R92, R93, R94). -/
theorem State.nextMessage_getD_zero (s : State) : s.nextMessage.getD 0 0 = stx := by
  unfold State.nextMessage
  cases s.rot <;> rfl

/-! ### `GenMsg` -/

/-- Settles O25: the body written out is the model's template, and a message as numbers is `message_map_toNat`. -/
theorem genMsgBuildsTheNextMessage : Obligations.GenMsgBuildsTheNextMessage := by
  unfold Obligations.GenMsgBuildsTheNextMessage
  intro s hp body ck digit m
  have hbody : templateBody s.rot s.sid s.layout = body := by
    simp only [body]
    cases s.rot <;> rfl
  have hck : (checksum .typeByte body).toNat = ck := checksum_toNat .typeByte body
  have hnext : s.nextMessage = message s.par body := congrArg (message s.par) hbody
  have hnumbers : s.nextMessage.map BitVec.toNat = m := by
    rw [hnext, message_map_toNat hp, hck]
    rfl
  constructor
  · intro k
    calc s.genMsg.msg[k].toNat = (s.nextMessage.getD k 0).toNat := by
          rw [State.genMsg_msg]
          exact congrArg BitVec.toNat (msgBuffer_getElem s.nextMessage k k.isLt)
      _ = (s.nextMessage.map BitVec.toNat).getD k 0 := (List.getD_map s.nextMessage 0 BitVec.toNat).symm
      _ = m.getD k 0 := by rw [hnumbers]
  · have hlen : s.nextMessage.length = body.length + 3 := by rw [hnext, message_length]
    rw [← hlen]
    rfl

/-! ### The concrete messages -/

/-- Template A is constant (R92). -/
theorem State.nextMessage_of_a {s : State} (hp : s.par.isHardware) (hr : s.rot = .a) :
    s.nextMessage = message (Params.hardware 0) [stx, 0x11, 0x04] := by
  rw [State.nextMessage, message_hardware hp, hr]
  rfl

/-- Template B by the mode character (R93, R101). -/
theorem State.nextMessage_of_b {s : State} (hp : s.par.isHardware) (hr : s.rot = .b) :
    s.nextMessage = message (Params.hardware 0)
      [stx, 0x14, 0x45, 0x31, 0x43, 0x32, 0x30, 0x41, modeChar s.layout, 0x32] := by
  rw [State.nextMessage, message_hardware hp, hr]
  rfl

/-- Template C by the bytes of the identity (R94). -/
theorem State.nextMessage_of_c {s : State} (hp : s.par.isHardware) (hr : s.rot = .c) :
    s.nextMessage = message (Params.hardware 0) ([stx, 0x16] ++ s.sid.toList ++ [0x23]) := by
  rw [State.nextMessage, message_hardware hp, hr]
  rfl

/-- The checksum of template C: the type byte and `#` give 0x39 (R102). -/
theorem checksum_c_toNat (sid : List Byte) :
    (checksum .typeByte ([stx, 0x16] ++ sid ++ [0x23])).toNat =
      (0x39 + (sid.map (fun b => b.toNat % 128)).sum) % 256 := by
  have hsum : ((([stx, 0x16] ++ sid ++ [0x23]).drop (ckIndex .typeByte)).map (fun b : Byte => b.toNat % 128)).sum =
      0x39 + (sid.map (fun b => b.toNat % 128)).sum := by
    simp [ckIndex]
    omega
  rw [checksum_toNat, hsum]

/-- Settles O26: the messages that depend on nothing but the template and the layout are computed, and template C is
its body with the digits of `checksum_c_toNat`. -/
theorem concreteMessagesByConfiguration : Obligations.ConcreteMessagesByConfiguration := by
  unfold Obligations.ConcreteMessagesByConfiguration
  intro s hp
  refine ⟨?templateA, ?mono, ?dual, ?jointOrStereo, ?zeroIdentity, ?testIdentity, ?identity⟩
  case templateA =>
    intro hr
    rw [State.nextMessage_of_a hp hr]
    decide
  case mono =>
    intro hr hl
    rw [State.nextMessage_of_b hp hr, hl]
    decide
  case dual =>
    intro hr hl
    rw [State.nextMessage_of_b hp hr, hl]
    decide
  case jointOrStereo =>
    intro hr hl
    have hmode : modeChar s.layout = 0x53 := by
      obtain hl | hl := hl <;> rw [hl] <;> rfl
    rw [State.nextMessage_of_b hp hr, hmode]
    decide
  case zeroIdentity =>
    intro hr hsid
    rw [State.nextMessage_of_c hp hr, hsid]
    decide
  case testIdentity =>
    intro hr hsid
    rw [State.nextMessage_of_c hp hr, hsid]
    decide
  case identity =>
    intro hr
    let ck : Byte := checksum .typeByte ([stx, 0x16] ++ s.sid.toList ++ [0x23])
    refine ⟨hexDigit true (lowNibble ck), hexDigit true (highNibble ck), ?_, ?_⟩
    · rw [State.nextMessage_of_c hp hr, message_eq, List.append_assoc _ [0x23]]
      rfl
    · rw [hexValue_digits, checksum_c_toNat]

/-! ### `NextByte` -/

/-- Strictly inside a message: the byte at the cursor, and the cursor moves on by one (R98). -/
theorem State.nextByte_of_inside {s : State} (h : s.cur ≠ s.mlen) (hc : s.cur.toNat < 40) :
    s.nextByte = .ok (s.msg[s.cur.toNat], { s with cur := s.cur + 1 }) := by
  simp [State.nextByte, State.refill_of_inside h, hc]

/-- At the end of a message, or with none generated: the next message, and its first byte (R98). -/
theorem State.nextByte_of_end {s : State} (h : s.cur = s.mlen) :
    s.nextByte = .ok (stx, { s.genMsg with cur := 1 }) := by
  have hstx : (msgBuffer s.nextMessage)[0] = stx := by
    rw [msgBuffer_getElem _ _ (by decide), State.nextMessage_getD_zero]
  simp [State.nextByte, State.refill_of_end h, hstx]

/-- `MLEN`, when a message has been generated, is the length of the template before the one `ROT` names (R26 (b)). -/
theorem State.mlen_eq_messageLength {s : State} (hl : s.LengthNamesTemplate) (h0 : s.mlen ≠ 0) :
    s.mlen.toNat = messageLength s.rot.pred := by
  obtain ⟨hm, -⟩ | ⟨hm, hr⟩ | ⟨hm, hr⟩ | ⟨hm, hr⟩ := hl
  · exact absurd hm h0
  all_goals
    rw [hm, hr]
    rfl

/-- The last byte of the present message is ETX (R17, R91). -/
theorem State.msg_last {s : State} (hl : s.LengthNamesTemplate) (hb : s.BufferHoldsMessage) {k : Nat}
    (hk : k < 40) (hlast : k + 1 = s.mlen.toNat) : s.msg[k] = etx := by
  have h0 : s.mlen ≠ 0 := by
    intro h
    simp [h] at hlast
  let body : List Byte := templateBody s.rot.pred s.sid s.layout
  have hmsg : s.msg = msgBuffer (message s.par body) := hb.trans (if_neg h0)
  have hindex : k = body.length + 2 := by
    have hbody : body.length + 3 = messageLength s.rot.pred := by
      rw [templateBody_length]
      cases s.rot.pred <;> rfl
    have hmlen := State.mlen_eq_messageLength hl h0
    omega
  calc s.msg[k] = (message s.par body).getD k 0 := by simp only [hmsg, msgBuffer_getElem _ k hk]
    _ = etx := by rw [hindex, message_getD_last]

/-- Settles O29: the two cases of `NextByte`, the byte before the end, and the seven-byte run from reset. -/
theorem nextByteReadsAtTheCursor : Obligations.NextByteReadsAtTheCursor := by
  unfold Obligations.NextByteReadsAtTheCursor
  refine ⟨?answers, ?lastByte, ?bytes, ?rotAfterSix, ?rotAfterSeven⟩
  case answers =>
    intro s hrange
    obtain ⟨b, t, hok, ⟨hle, -⟩, hpos, -⟩ := State.nextByte_of_range hrange
    refine ⟨b, t, hok, ?inside, ?atEnd, hpos, hle⟩
    case inside =>
      intro hne
      have hc : s.cur.toNat < 40 := by
        obtain ⟨hcur, hmlen⟩ := hrange
        omega
      cases (State.nextByte_of_inside hne hc).symm.trans hok
      exact ⟨Vector.getElem?_eq_getElem hc, rfl⟩
    case atEnd =>
      intro heq
      cases (State.nextByte_of_end heq).symm.trans hok
      exact ⟨rfl, rfl⟩
  case lastByte =>
    intro s hrange hl hb hlast
    obtain ⟨hcur, hmlen⟩ := hrange
    have hc : s.cur.toNat < 40 := by omega
    have hne : s.cur ≠ s.mlen := by
      intro h
      rw [h] at hlast
      omega
    have hnext : s.cur + 1 = s.mlen := by bv_omega
    rw [State.nextByte_of_inside hne hc, State.msg_last hl hb hc hlast, hnext]
    rfl
  case bytes => decide +kernel
  case rotAfterSix => decide +kernel
  case rotAfterSeven => decide +kernel

end Sys2Proof.Machine
end

section
/-! The ancillary builder (42_ancillary_builder.md): the three bytes that `BuildAnc` takes (R110, R111), the codewords
that `Expand` writes (R112), and the places that `Interleave` writes (R113). -/

namespace Sys2Proof.Machine

/-! ### `BuildAnc` -/

/-- `ANC[0..14]` are hardwired (10_state.md R23). -/
theorem State.ancByte_of_lt (s : State) {k : Nat} (h : k < 15) : s.ancByte k = 0 := by
  unfold State.ancByte
  rw [if_neg (by omega), if_neg (by omega), if_neg (by omega)]

/-- A message byte whose bit 7 is replaced by its flag, as a number (R111). -/
theorem withFlag_replaceBit_toNat (flag : Bool) (b : Byte) :
    (withFlag .replaceBit flag b).toNat = b.toNat % 128 + (if flag then 128 else 0) := by
  have hlow : (b.extractLsb' 0 7).toNat = b.toNat % 128 := by simp
  rw [withFlag, toNat_append_eq_add, hlow]
  cases flag
  · simp
  · simp [Nat.add_comm]

/-- What `BuildAnc` answers, by the three calls of `NextByte`; they leave `BIT7_MODE` and `IE` (R110). -/
theorem State.buildAnc_of_nextBytes {s s1 s2 s3 : State} {b15 b16 b17 : Byte} (h15 : s.nextByte = .ok (b15, s1))
    (h16 : s1.nextByte = .ok (b16, s2)) (h17 : s2.nextByte = .ok (b17, s3)) :
    s.buildAnc = .ok { s3 with
      anc15 := withFlag s.par.bit7 false b15
      anc16 := withFlag s.par.bit7 false b16
      anc17 := withFlag s.par.bit7 s.ie b17 } := by
  have hcycle : CycleOnly s s3 :=
    ((State.nextByte_cycleOnly h15).trans (State.nextByte_cycleOnly h16)).trans (State.nextByte_cycleOnly h17)
  have hpar : s3.par = s.par := by rw [hcycle]
  have hie : s3.ie = s.ie := by rw [hcycle]
  simp only [State.buildAnc, h15, h16, h17, State.flagIp, flagSkp, flagRdsc, hpar, hie]

/-- Settles O30: the state that `BuildAnc` answers by the three calls, and each flagged byte as a number. -/
theorem buildAncTakesThreeBytes : Obligations.BuildAncTakesThreeBytes := by
  unfold Obligations.BuildAncTakesThreeBytes
  intro s s1 s2 s3 b15 b16 b17 hmode h15 h16 h17
  refine ⟨_, State.buildAnc_of_nextBytes h15 h16 h17, ?_, ?_, ?_, fun k hk => State.ancByte_of_lt _ hk, rfl⟩
  all_goals
    rw [hmode]
    exact withFlag_replaceBit_toNat _ _

/-! ### `Expand` -/

/-- The high half of the table: the codewords with bit 6 set (40_block_code.md R80, R81 (d)). -/
theorem bct_mem_highHalf {v : BitVec 4} (h : v.getLsbD 3 = true) :
    bct v ∈ ([0x4B, 0x4C, 0x52, 0x55, 0x61, 0x66, 0x78, 0x7F] : List Codeword) := by
  revert v
  decide

theorem highNibble_getLsbD_three (b : Byte) : (highNibble b).getLsbD 3 = b.getLsbD 7 := by
  simp [highNibble]

theorem lowNibble_congr {b c : Byte} (h : ∀ p < 4, b.getLsbD p = c.getLsbD p) : lowNibble b = lowNibble c := by
  apply BitVec.eq_of_getLsbD_eq
  intro p hp
  simpa [lowNibble, hp] using h p hp

theorem State.codewords_34 (s : State) : s.codewords[34] = bct (lowNibble s.anc17) :=
  s.codewords_even 17 (by decide)

theorem State.codewords_35 (s : State) : s.codewords[35] = bct (highNibble s.anc17) :=
  s.codewords_odd 17 (by decide)

/-- `ANC[17]` has no part in the codewords below `CW[34]` (R112). -/
theorem State.codewords_anc17 (s : State) (b : Byte) {i : Nat} (h : i < 34) :
    { s with anc17 := b }.codewords[i] = s.codewords[i] := by
  have hanc : { s with anc17 := b }.ancByte (i / 2) = s.ancByte (i / 2) := by
    simp only [State.ancByte, if_neg (show i / 2 ≠ 17 by omega)]
  rw [State.codewords_getElem, State.codewords_getElem, State.codewordOf, State.codewordOf, hanc]

/-- Settles O31: even codewords are of low nibbles and odd ones of high nibbles, so bit 7 of `ANC[17]` is the top bit of
the nibble of `CW[35]` and reaches no other codeword. -/
theorem expandEncodesEveryNibble : Obligations.ExpandEncodesEveryNibble := by
  unfold Obligations.ExpandEncodesEveryNibble
  intro s
  refine ⟨rfl, ?nibbles, fun i => s.codewords_low i i.isLt, ?bitSeven, ?otherCodewords⟩
  case nibbles =>
    intro k
    rw [← lowNibble_eq_ofNat, ← highNibble_eq_ofNat]
    exact ⟨s.codewords_even k k.isLt, s.codewords_odd k k.isLt⟩
  case bitSeven =>
    intro h7
    have htop : (highNibble s.anc17).getLsbD 3 = true := (highNibble_getLsbD_three _).trans h7
    obtain ⟨-, -, -, hsix⟩ := bct_systematic (highNibble s.anc17)
    simp only [State.expand_cw, State.codewords_35]
    exact ⟨hsix.symm.trans htop, bct_mem_highHalf htop⟩
  case otherCodewords =>
    intro k b hb
    obtain hk | hk : k.val < 34 ∨ k.val = 34 := by omega
    · exact s.codewords_anc17 b hk
    · have hlow : lowNibble b = lowNibble s.anc17 := lowNibble_congr fun p hp => hb p (by omega)
      simp only [State.expand_cw, hk, State.codewords_34, hlow]

/-! ### `Interleave` -/

/-- No frame is shorter than 576 bytes (20_memory.md R42). -/
theorem State.le_fBytes (s : State) : 0x240 ≤ s.fBytes := Nat.le_add_right _ _

/-- `Interleave` answers on a full slot, and what it changes is the cells of that slot (R113). -/
theorem State.interleave_of_full {s : State} {i : SlotId} (h : Memory.full s.fBytes (s.slot i)) :
    ∃ m, interleaveCells s.fBytes s.cw (s.slot i) = .ok m ∧ s.interleave i = .ok (s.setSlot i m) := by
  obtain ⟨m, hm⟩ := interleaveCells_of_full s.le_fBytes s.cw h
  exact ⟨m, hm, by rw [State.interleave, hm]⟩

/-- Every place holds its stream bit after interleaving (R113). -/
theorem interleaveCells_streamBit {f : Nat} {cw : Vector Codeword 36} {m m' : Memory}
    (h : interleaveCells f cw m = .ok m') {i : Nat} (hi : i < 252) {v w : Byte}
    (hv : m.byte? (bitOffset i) = some v) (hw : m'.byte? (bitOffset i) = some w) :
    w.getLsbD (bitPos i) = streamBit cw i := by
  have hplace : streamIndexAt (bitOffset i) (bitPos i) = some i :=
    (streamIndexAt_eq_some_iff (bitPos_lt i)).2 ⟨hi, rfl, rfl⟩
  have hbit := interleaveCells_bits h hv hw (bitPos i) (bitPos_lt i)
  rwa [hplace] at hbit

/-- A bit that is no place of the stream is as it was before interleaving (R113, R116). -/
theorem interleaveCells_otherBit {f : Nat} {cw : Vector Codeword 36} {m m' : Memory}
    (h : interleaveCells f cw m = .ok m') {o p : Nat} (hp : p < 8) {v w : Byte} (hv : m.byte? o = some v)
    (hw : m'.byte? o = some w) (hno : ∀ i < 252, ¬ (bitOffset i = o ∧ bitPos i = p)) :
    w.getLsbD p = v.getLsbD p := by
  have hnone : streamIndexAt o p = none := by
    rw [Option.eq_none_iff_forall_ne_some]
    intro i hi
    obtain ⟨hlt, hplace⟩ := (streamIndexAt_eq_some_iff hp).1 hi
    exact hno i hlt hplace
  have hbit := interleaveCells_bits h hv hw p hp
  rwa [hnone] at hbit

/-- Settles O32: the map written out is `bitOffset`, `bitPos` and `streamBit`, and the three clauses are what
interleaving does to a place, to any other bit, and to which bytes hold a value. -/
theorem interleavePlacesEveryStreamBit : Obligations.InterleavePlacesEveryStreamBit := by
  unfold Obligations.InterleavePlacesEveryStreamBit
  intro s sl hfull
  obtain ⟨m, hm, hok⟩ := State.interleave_of_full hfull
  refine ⟨m, hok, ?places, fun o p v w hp hv hw => interleaveCells_otherBit hm hp hv hw, interleaveCells_isSome hm⟩
  case places =>
    intro i hi
    have hlt : bitOffset i < s.fBytes := Nat.lt_of_lt_of_le (bitOffset_lt hi) s.le_fBytes
    have hbefore : ((s.slot sl).byte? (bitOffset i)).isSome := hfull _ hlt
    obtain ⟨v, hv⟩ := Option.isSome_iff_exists.1 hbefore
    obtain ⟨w, hw⟩ := Option.isSome_iff_exists.1 ((interleaveCells_isSome hm _).trans hbefore)
    exact ⟨w, hw, interleaveCells_streamBit hm hi hv hw⟩

end Sys2Proof.Machine
end

section
/-! The frame scheduler (43_frame_scheduler.md): what loading a frame leaves in the slots (R130, R131), the command that
builds a frame (R132, R134), and a build with the integrity check off (R135). -/

namespace Sys2Proof.Machine

/-! ### Reading a whole slot -/

/-- A slot that lists no byte beyond its length holds no value there. -/
theorem Memory.byte?_of_within {f : Nat} {m : Memory} (h : m.within f = true) {o : Nat} (ho : f ≤ o) :
    m.byte? o = none := by
  rw [Option.eq_none_iff_forall_ne_some]
  intro v hv
  have hlt : o < f := (Memory.within_iff f m).1 h (o, v) (Memory.mem_of_byte?_eq_some hv)
  omega

/-- A full canonical slot reads as one frame of its length, which it holds. -/
theorem Memory.read_of_full {f : Nat} {m : Memory} (hw : m.wf = true) (hf : Memory.full f m) :
    ∃ bs, m.read f 0 f = .ok bs ∧ bs.length = f ∧ Memory.holds m bs := by
  obtain ⟨bs, hbs⟩ := Memory.read_of_values hw (by omega : 0 + f ≤ f) fun i hi => hf (0 + i) (by omega)
  obtain ⟨-, hlen, hbytes⟩ := Memory.read_ok hbs
  refine ⟨bs, hbs, hlen, fun o ho => ?_⟩
  simpa using hbytes o (by omega)

theorem State.slot_canonical {s : State} (h : s.SlotsCanonical) (i : SlotId) :
    (s.slot i).wf = true ∧ (s.slot i).within s.fBytes = true := by
  obtain ⟨hzero, hone⟩ := h
  cases i with
  | zero => exact hzero
  | one => exact hone

/-! ### Loading a frame -/

/-- What steps (1) and (2) of `BuildFrame` on the frame `fin` leave (R131): the current slot reads as `held`, which is
`fin` with the ancillary bits, and the other slot and everything that the later steps read are as before. -/
structure LoadsFrame (s : State) (fin held : Frame) (u : State) : Prop where
  ok : s.loadAndInsert fin = .ok u
  ie : u.ie = s.ie
  fc : u.fc = s.fc
  fBytes : u.fBytes = s.fBytes
  read : u.memRead s.currentSlot 0 s.fBytes = .ok held
  holds : Memory.holds (u.slot s.currentSlot) held
  inserted : InsertedFrame u.cw fin held
  previous : u.slot s.previousSlot = s.slot s.previousSlot
  beyond : ∀ i o, s.fBytes ≤ o → u.byteAt i o = s.byteAt i o

theorem LoadsFrame.currentSlot {s u : State} {fin held : Frame} (h : LoadsFrame s fin held u) :
    u.currentSlot = s.currentSlot := by
  rw [State.currentSlot, State.currentSlot, h.fc]

theorem AncOnly.slot {s t : State} (h : AncOnly s t) (i : SlotId) : t.slot i = s.slot i := by
  unfold AncOnly at h
  rw [h]
  cases i <;> rfl

/-- With the cursor in range and the slots canonical, a frame of `F_BYTES` bytes is loaded. -/
theorem State.loadsFrame {s : State} (hr : s.CursorInRange) (hc : s.SlotsCanonical) {fin : Frame}
    (hl : fin.length = s.fBytes) : ∃ held u, LoadsFrame s fin held u := by
  obtain ⟨sa, m, hsa, hload, hfull, hwf, hwithin, hbytes⟩ := State.loadAndInsert_spec hr hl
  obtain ⟨hcwf, hcwithin⟩ := State.slot_canonical hc s.currentSlot
  obtain ⟨held, hread, hlen, hholds⟩ := Memory.read_of_full (hwf hcwf) hfull
  have hanc : AncOnly s sa := State.buildAnc_ancOnly hsa
  have hie : sa.ie = s.ie := by rw [hanc]
  have hfc : sa.fc = s.fc := by rw [hanc]
  have hfb : (sa.expand.setSlot s.currentSlot m).fBytes = s.fBytes := by
    rw [State.setSlot_fBytes]
    exact hanc.fBytes
  have hother {i : SlotId} (hi : i ≠ s.currentSlot) : (sa.expand.setSlot s.currentSlot m).slot i = s.slot i := by
    rw [State.setSlot_slot_ne _ hi, State.expand_slot, hanc.slot]
  refine ⟨held, sa.expand.setSlot s.currentSlot m, {
    ok := hload
    ie := by simpa using hie
    fc := by simpa using hfc
    fBytes := hfb
    read := by rw [State.memRead, State.setSlot_slot, hfb, hread]
    holds := by rwa [State.setSlot_slot]
    inserted := ⟨hlen.trans hl.symm, ?inserted⟩
    previous := hother (SlotId.other_ne _)
    beyond := ?beyond }⟩
  case inserted =>
    intro o ho
    rw [State.setSlot_cw]
    exact hbytes o (by omega) _ (hholds o (by omega))
  case beyond =>
    intro i o ho
    by_cases hi : i = s.currentSlot
    · subst hi
      rw [State.byteAt, State.byteAt, State.setSlot_slot, Memory.byte?_of_within (hwithin hcwithin) ho,
        Memory.byte?_of_within hcwithin ho]
    · rw [State.byteAt, State.byteAt, hother hi]

/-! ### Building a frame as a command -/

theorem State.buildFrame_of_steps {s s1 s2 : State} {fin : Frame} {scf : Vector Byte 4} {out : Option Frame}
    (h1 : s.loadAndInsert fin = .ok s1) (h2 : s1.stampAndEmit scf = .ok (out, s2)) :
    s.buildFrame fin scf = .ok (out, s2.countFrame) := by
  simp only [State.buildFrame, h1, h2]

/-- `PRODUCE` and `EOS` on a whole frame in phase RUN respond with what `BuildFrame` emits (R132, R134). -/
theorem exec_of_buildFrame {s u : State} {out : Option Frame} (hp : s.phase = .run) (hl : s.fin.length = s.fBytes)
    (hb : s.buildFrame s.fin s.scf = .ok (out, u)) :
    exec .produce s = .next (u.respond (.frame out)) ∧
      exec .eos s = .next { u.respond (.frame out) with phase := .done } := by
  have hne : s.fin.length ≠ 0 := by
    have hle := s.le_fBytes
    omega
  constructor
  · simp only [exec, execProduce, if_pos hp, if_neg hne, if_pos hl, hb]
  · simp only [exec, execEos, if_pos hp, if_neg hne, if_pos hl, hb]
    rfl

/-- A build that ends with a response is one built frame (R131). -/
theorem BuildOnly.respond {s u : State} (h : BuildOnly s u) (r : Response) : BuildsOneFrame s (u.respond r) := by
  unfold BuildOnly at h
  rw [h]
  rfl

/-! ### The check off -/

/-- With IE = 0 the current slot is emitted as it stands and nothing is written (R131 step 3b). -/
theorem State.stampAndEmit_of_off {s : State} {f : Frame} (scf : Vector Byte 4) (hie : s.ie = false)
    (hread : s.memRead s.currentSlot 0 s.fBytes = .ok f) : s.stampAndEmit scf = .ok (some f, s) := by
  simp [State.stampAndEmit, hie, hread]

/-- With IE = 0 a loaded frame is the frame that `BuildFrame` emits (R135). -/
theorem LoadsFrame.buildFrame_of_off {s u : State} {fin held : Frame} (h : LoadsFrame s fin held u)
    (scf : Vector Byte 4) (hie : s.ie = false) : s.buildFrame fin scf = .ok (some held, u.countFrame) := by
  have hread : u.memRead u.currentSlot 0 u.fBytes = .ok held := by rw [h.currentSlot, h.fBytes, h.read]
  exact State.buildFrame_of_steps h.ok (State.stampAndEmit_of_off scf (h.ie.trans hie) hread)

/-- Settles O36: with IE = 0 the loaded frame is the one emitted, and counting and responding leave its slot alone. -/
theorem framesGoOutAtOnceWithoutTheCheck : Obligations.FramesGoOutAtOnceWithoutTheCheck := by
  unfold Obligations.FramesGoOutAtOnceWithoutTheCheck
  intro s hinv hrun hie hl
  obtain ⟨hrange, -, -, -, -, -, -, -, hcanonical, -⟩ := hinv
  obtain ⟨out, u, hload⟩ := State.loadsFrame hrange hcanonical hl
  have hbuild : s.buildFrame s.fin s.scf = .ok (some out, u.countFrame) := hload.buildFrame_of_off s.scf hie
  have honly : BuildOnly s u.countFrame := State.buildFrame_buildOnly hl hbuild
  obtain ⟨hproduce, heos⟩ := exec_of_buildFrame hrun hl hbuild
  have hslot (i : SlotId) : (u.countFrame.respond (.frame (some out))).slot i = u.slot i := by
    rw [State.respond_slot, State.countFrame_slot]
  refine ⟨u.countFrame.respond (.frame (some out)), out, hproduce, heos, ?response, hload.inserted, ?current,
    ?previous, honly.respond _, ?beyond⟩
  case response => rw [State.respond_responses, honly.responses, Response.frame]
  case current => rw [hslot]; exact hload.holds
  case previous => rw [hslot, hload.previous]
  case beyond =>
    intro i o ho
    rw [State.byteAt, hslot]
    exact hload.beyond i o ho

end Sys2Proof.Machine
end

section
/-! The configuration and the read port (44_config_access.md): `WRSID`, `WRCTL` and `START` (R150, R151, R152), what the
commands leave of the configuration (R154), and `RDREG` (R153). -/

namespace Sys2Proof.Machine

/-! ### A command in a phase that does not accept it -/

/-- Outside the phases of its row of the matrix a command raises `SEQ_ERR` (60_exceptions.md R174). -/
theorem exec_of_not_accepts {i : Instr} {s : State} (h : accepts s.phase i = false) :
    exec i s = .next (s.raise .seqErr) := by
  cases i with
  | wrsid | wrctl | start =>
    have hp : s.phase ≠ .config := by simpa [accepts] using h
    exact if_neg hp
  | produce | eos =>
    have hp : s.phase ≠ .run := by simpa [accepts] using h
    exact if_neg hp
  | rdreg | enc4 | enc8 => cases h

/-- The commands that phase CONFIG alone accepts (R174). -/
theorem accepts_eq_false_of_ne_config {p : Phase} (hp : p ≠ .config) :
    (∀ k d, accepts p (.wrsid k d) = false) ∧ (∀ l e, accepts p (.wrctl l e) = false) ∧
      accepts p .start = false :=
  ⟨fun _ _ => beq_false_of_ne hp, fun _ _ => beq_false_of_ne hp, beq_false_of_ne hp⟩

/-! ### `WRSID`, `WRCTL` and `START` in phase CONFIG -/

theorem exec_wrsid_of_config {s : State} (hp : s.phase = .config) (k : BitVec 5) (d : Byte) :
    exec (.wrsid k d) s = .next ({ s with sid := s.sid.set k.toNat d k.isLt }.respond .done) := if_pos hp

theorem exec_wrctl_of_config {s : State} (hp : s.phase = .config) (layout : Layout) (ie : Bool) :
    exec (.wrctl layout ie) s = .next ({ s with ie := ie, layout := layout }.respond .done) := if_pos hp

theorem exec_start_of_config {s : State} (hp : s.phase = .config) :
    exec .start s =
      if s.sidHoldsHash then .next (s.raise .cfgErr) else .next ({ s with phase := .run }.respond .done) := if_pos hp

/-- The check of `START` by the bytes of the identity (R152). -/
theorem State.sidHoldsHash_iff (s : State) : s.sidHoldsHash = true ↔ ∃ k : Fin 32, s.sid[k] = 0x23 := by
  simp only [State.sidHoldsHash, List.any_eq_true, Vector.mem_toList_iff, beq_iff_eq, exists_eq_right, hashByte]
  rw [Vector.mem_iff_getElem]
  exact ⟨fun ⟨k, hk, h⟩ => ⟨⟨k, hk⟩, h⟩, fun ⟨k, h⟩ => ⟨k, k.isLt, h⟩⟩

/-- `CTRL` by its two written fields: `SKP` and `RDSC` are hardwired 0 (10_state.md R14, R15). -/
theorem State.ctrlByte_eq_or (s : State) :
    s.ctrlByte = (s.layout.bits.setWidth 8 <<< 1) ||| (BitVec.ofBool s.ie).setWidth 8 := by
  unfold State.ctrlByte
  cases s.layout <;> cases s.ie <;> rfl

/-- The word of a command whose format uses `a` only (30_encoding.md R61). -/
theorem mkWord_a_zero_eq_or (op : BitVec 4) (a : Byte) :
    mkWord op a 0 = op.setWidth 20 <<< 16 ||| a.setWidth 20 <<< 8 := by
  rw [mkWord_eq_or]
  simp

/-- Settles O16: the row of `WRSID` among the rows of the decoder, its word by its fields, and the two cases of the
phase. -/
theorem wrsidWritesOneByte : Obligations.WrsidWritesOneByte := by
  unfold Obligations.WrsidWritesOneByte
  constructor
  · intro w hop
    simp [decode_ok_iff_fields, RowFields, hop]
  · intro k d s
    refine ⟨?word, fun hp => exec_wrsid_of_config hp k d, ?elsewhere⟩
    case word =>
      rw [encode, mkWord_eq_or, BitVec.setWidth_setWidth (by decide)]
      rfl
    case elsewhere =>
      intro hp
      obtain ⟨hwrsid, -, -⟩ := accepts_eq_false_of_ne_config hp
      exact exec_of_not_accepts (hwrsid k d)

/-- Settles O17: as for `WRSID`; what `CTRL` then reads is `State.ctrlByte_eq_or` of the state written. -/
theorem wrctlWritesIeAndLayout : Obligations.WrctlWritesIeAndLayout := by
  unfold Obligations.WrctlWritesIeAndLayout
  constructor
  · intro w hop
    simp [decode_ok_iff_fields, RowFields, hop]
  · intro layout ie s
    refine ⟨?word, fun hp => ⟨_, exec_wrctl_of_config hp layout ie, rfl, State.ctrlByte_eq_or _⟩, ?elsewhere⟩
    case word => cases layout <;> cases ie <;> rfl
    case elsewhere =>
      intro hp
      obtain ⟨-, hwrctl, -⟩ := accepts_eq_false_of_ne_config hp
      exact exec_of_not_accepts (hwrctl layout ie)

/-- Settles O18: the word is the one whose fields the row of `START` asks for, and in phase CONFIG the check of the
identity decides. -/
theorem startEndsConfiguration : Obligations.StartEndsConfiguration := by
  unfold Obligations.StartEndsConfiguration
  refine ⟨rfl, ?onlyWord, fun s => ⟨?starts, ?hash, ?elsewhere⟩⟩
  case onlyWord =>
    intro w hop
    have hword : w = 0x30000 ↔ opField w = 3 ∧ aField w = 0 ∧ dField w = 0 := by
      rw [← mkWord_inj, mkWord_fields]
      rfl
    rw [hword, decode_ok_iff_fields]
    simp [RowFields, hop]
  case starts =>
    intro hp hno
    have hclear : ¬ s.sidHoldsHash = true := by
      rw [State.sidHoldsHash_iff]
      exact not_exists.2 hno
    rw [exec_start_of_config hp, if_neg hclear]
    rfl
  case hash =>
    intro hp hhash
    rw [exec_start_of_config hp, if_pos (s.sidHoldsHash_iff.2 hhash)]
  case elsewhere =>
    intro hp
    obtain ⟨-, -, hstart⟩ := accepts_eq_false_of_ne_config hp
    exact exec_of_not_accepts hstart

/-! ### What the commands leave of the configuration -/

/-- `SID` and `CTRL` of `t` are those of `s`. -/
structure SameConfig (s t : State) : Prop where
  sid : t.sid = s.sid
  ie : t.ie = s.ie
  layout : t.layout = s.layout

theorem BuildOnly.sameConfig {s t : State} (h : BuildOnly s t) : SameConfig s t := by
  unfold BuildOnly at h
  rw [h]
  exact ⟨rfl, rfl, rfl⟩

theorem State.raise_sameConfig (s : State) (e : Err) : SameConfig s (s.raise e) :=
  ⟨s.raise_sid e, s.raise_ie e, s.raise_layout e⟩

/-- A command keeps the configuration, or is a `WRSID` or a `WRCTL` in phase CONFIG, and each of these keeps what the
other writes (R150, R151, R154). -/
theorem exec_config_cases {i : Instr} {s t : State} (h : exec i s = .next t) :
    SameConfig s t ∨
      (s.phase = .config ∧ (∃ k d, i = .wrsid k d) ∧ t.ie = s.ie ∧ t.layout = s.layout) ∨
      (s.phase = .config ∧ (∃ l e, i = .wrctl l e) ∧ t.sid = s.sid) := by
  obtain hraise | hvalue | hwrsid | hwrctl | hstart | hproduce | heos | hbuilt := exec_next h
  · obtain ⟨e, rfl⟩ := hraise
    exact .inl (s.raise_sameConfig e)
  · obtain ⟨v, rfl, -⟩ := hvalue
    exact .inl ⟨rfl, rfl, rfl⟩
  · obtain ⟨k, d, hi, hp, rfl⟩ := hwrsid
    exact .inr (.inl ⟨hp, ⟨k, d, hi⟩, rfl, rfl⟩)
  · obtain ⟨l, e, hi, hp, rfl⟩ := hwrctl
    exact .inr (.inr ⟨hp, ⟨l, e, hi⟩, rfl⟩)
  · obtain ⟨-, -, -, rfl⟩ := hstart
    exact .inl ⟨rfl, rfl, rfl⟩
  · obtain ⟨-, -, -, rfl⟩ := hproduce
    exact .inl ⟨rfl, rfl, rfl⟩
  · obtain ⟨-, -, -, rfl⟩ := heos
    exact .inl ⟨rfl, rfl, rfl⟩
  · obtain ⟨out, u, -, hl, hb, hend⟩ := hbuilt
    obtain ⟨hsid, hie, hlayout⟩ := (State.buildFrame_buildOnly hl hb).sameConfig
    obtain ⟨-, rfl⟩ | ⟨-, rfl⟩ := hend
    all_goals exact .inl ⟨hsid, hie, hlayout⟩

/-- The same for the step on a command word; a word that does not decode raises an error, which keeps both. -/
theorem CommandStep.config_cases {s t : State} {w : CmdWord} (h : CommandStep s w t) :
    SameConfig s t ∨
      (s.phase = .config ∧ (∃ k d, decode w = .ok (.wrsid k d)) ∧ t.ie = s.ie ∧ t.layout = s.layout) ∨
      (s.phase = .config ∧ (∃ l e, decode w = .ok (.wrctl l e)) ∧ t.sid = s.sid) := by
  obtain ⟨e, -, rfl⟩ | ⟨i, hd, hexec⟩ := h.illegal_or_exec
  · exact .inl (s.raise_sameConfig .illegalCmd)
  · obtain hsame | ⟨hp, ⟨k, d, rfl⟩, hctrl⟩ | ⟨hp, ⟨l, e, rfl⟩, hsid⟩ := exec_config_cases hexec
    · exact .inl hsame
    · exact .inr (.inl ⟨hp, ⟨k, d, hd⟩, hctrl⟩)
    · exact .inr (.inr ⟨hp, ⟨l, e, hd⟩, hsid⟩)

/-- Settles O19: a change of `SID` or of `CTRL` leaves one case of `CommandStep.config_cases` each. -/
theorem configurationIsFrozenOutsideConfig : Obligations.ConfigurationIsFrozenOutsideConfig := by
  unfold Obligations.ConfigurationIsFrozenOutsideConfig
  constructor
  · intro s t w h
    obtain ⟨hsid, hie, hlayout⟩ | ⟨hp, hwrsid, hie, hlayout⟩ | ⟨hp, hwrctl, hsid⟩ := h.config_cases
    · exact ⟨fun hne => absurd hsid hne, fun hne => hne.elim (absurd hie) (absurd hlayout)⟩
    · exact ⟨fun _ => ⟨hp, hwrsid⟩, fun hne => hne.elim (absurd hie) (absurd hlayout)⟩
    · exact ⟨fun hne => absurd hsid hne, fun _ => ⟨hp, hwrctl⟩⟩
  · intro s hp
    obtain ⟨hwrsid, hwrctl, -⟩ := accepts_eq_false_of_ne_config hp
    exact ⟨fun k d => exec_of_not_accepts (hwrsid k d), fun l e => exec_of_not_accepts (hwrctl l e)⟩

/-! ### The numbers of the registers -/

theorem Reg.ofNumber_sid (k : Fin 32) : Reg.ofNumber (BitVec.ofNat 8 k) = some (.sid k) := by
  revert k
  decide

theorem Reg.ofNumber_msg (k : Fin 40) : Reg.ofNumber (BitVec.ofNat 8 (0x40 + k)) = some (.msg k) := by
  revert k
  decide

theorem Reg.ofNumber_anc (k : Fin 18) : Reg.ofNumber (BitVec.ofNat 8 (0x80 + k)) = some (.anc k) := by
  revert k
  decide

theorem Reg.ofNumber_cw (k : Fin 36) : Reg.ofNumber (BitVec.ofNat 8 (0xA0 + k)) = some (.cw k) := by
  revert k
  decide

/-- The four ranges of numbers without a register (10_state.md R28). -/
theorem Reg.ofNumber_unmapped {a : Byte}
    (h : (0x26 ≤ a.toNat ∧ a.toNat ≤ 0x3F) ∨ (0x68 ≤ a.toNat ∧ a.toNat ≤ 0x7F) ∨
      (0x92 ≤ a.toNat ∧ a.toNat ≤ 0x9F) ∨ 0xC4 ≤ a.toNat) : Reg.ofNumber a = none := by
  unfold Reg.ofNumber
  split_ifs
  case neg => rfl
  all_goals omega

/-! ### The values of the registers -/

/-- `CTRL` as a number (R14). -/
theorem State.ctrlByte_toNat (s : State) :
    s.ctrlByte.toNat = (if s.ie then 1 else 0) + 2 * s.layout.bits.toNat := by
  unfold State.ctrlByte
  cases s.ie <;> cases s.layout <;> rfl

/-- `STATUS` as a number (R28). -/
theorem State.statusByte_toNat (s : State) :
    s.statusByte.toNat =
      s.phase.code.toNat + 4 * s.errcode.toNat + 32 * (s.fc % 2) + (if 0 < s.fc then 64 else 0) := by
  have hpar : s.fcPar.toNat = s.fc % 2 := by
    obtain h | h := Nat.mod_two_eq_zero_or_one s.fc <;> simp [State.fcPar, h]
  have hnz : s.fcNz.toNat = if 0 < s.fc then 1 else 0 := by
    simp only [State.fcNz, Bool.toNat, Bool.cond_decide]
  simp only [State.statusByte, toNat_append_eq_add, BitVec.toNat_ofBool, hpar, hnz, BitVec.ofNat_eq_ofNat,
    BitVec.toNat_ofNat]
  split_ifs <;> omega

/-- The buffer is zero from `MLEN` on (10_state.md R17). -/
theorem State.msg_beyond {s : State} (hl : s.LengthNamesTemplate) (hb : s.BufferHoldsMessage) {k : Nat}
    (hk : k < 40) (hbeyond : s.mlen.toNat ≤ k) : s.msg[k] = 0 := by
  by_cases h0 : s.mlen = 0
  · have hmsg : s.msg = Vector.replicate 40 0 := hb.trans (if_pos h0)
    simp [hmsg]
  · have hmsg : s.msg = msgBuffer (message s.par (templateBody s.rot.pred s.sid s.layout)) := hb.trans (if_neg h0)
    have hlength : (message s.par (templateBody s.rot.pred s.sid s.layout)).length ≤ k := by
      rw [message_length, templateBody_length]
      rw [State.mlen_eq_messageLength hl h0] at hbeyond
      cases hr : s.rot.pred <;> simpa [hr, messageLength] using hbeyond
    simp only [hmsg, msgBuffer_getElem _ k hk]
    exact List.getD_eq_default _ _ hlength

/-! ### `RDREG` -/

theorem exec_rdreg_of_unmapped {a : Byte} (s : State) (h : Reg.ofNumber a = none) :
    exec (.rdreg a) s = .next (s.raise .addrErr) := by
  simp only [exec, execRdreg, h]

/-- A mapped register reads as its value, with no other effect (R153). -/
theorem readsAs_of_ofNumber {s : State} {a v : Nat} {r : Reg} (hr : Reg.ofNumber (BitVec.ofNat 8 a) = some r)
    (hv : (s.readReg r).toNat = v) : ReadsAs s a v := by
  have hexec : exec (.rdreg (BitVec.ofNat 8 a)) s = .next (s.respond (.value ((s.readReg r).setWidth 16))) := by
    simp only [exec, execRdreg, hr]
  rw [ReadsAs, hexec, State.respond_value_eq, ← hv, BitVec.ofNat_toNat]

/-- Settles O20: each number of the map names its register, and each register has the value of its rule. -/
theorem rdregReadsTheRegisterMap : Obligations.RdregReadsTheRegisterMap := by
  unfold Obligations.RdregReadsTheRegisterMap
  refine ⟨?words, ?word, fun s => ⟨?sid, ?ctrl, ?status, ?rot, ?cur, ?mlen, ?modech, ?msg, ?msgBeyond, ?ancLow,
    ?anc15, ?anc16, ?anc17, ?cw, ?unmapped⟩⟩
  case words =>
    intro w hop
    simp [decode_ok_iff_fields, RowFields, hop]
  case word =>
    intro a
    rw [encode, mkWord_a_zero_eq_or]
    rfl
  case sid => exact fun k => readsAs_of_ofNumber (Reg.ofNumber_sid k) rfl
  case ctrl => exact readsAs_of_ofNumber (r := .ctrl) rfl s.ctrlByte_toNat
  case status => exact readsAs_of_ofNumber (r := .status) rfl s.statusByte_toNat
  case rot => exact readsAs_of_ofNumber (r := .rot) rfl (BitVec.toNat_setWidth_of_le (by decide))
  case cur => exact readsAs_of_ofNumber (r := .cur) rfl (BitVec.toNat_setWidth_of_le (by decide))
  case mlen => exact readsAs_of_ofNumber (r := .mlen) rfl (BitVec.toNat_setWidth_of_le (by decide))
  case modech =>
    refine readsAs_of_ofNumber (r := .modech) rfl ?_
    rw [State.readReg, State.modeCh]
    cases s.layout <;> rfl
  case msg => exact fun k => readsAs_of_ofNumber (Reg.ofNumber_msg k) rfl
  case msgBeyond =>
    intro hinv k hbeyond
    obtain ⟨-, hlength, -, -, -, -, -, -, -, hbuffer, -⟩ := hinv
    exact readsAs_of_ofNumber (Reg.ofNumber_msg k)
      (congrArg BitVec.toNat (State.msg_beyond hlength hbuffer k.isLt hbeyond))
  case ancLow =>
    exact fun k hk => readsAs_of_ofNumber (Reg.ofNumber_anc ⟨k, by omega⟩)
      (congrArg BitVec.toNat (s.ancByte_of_lt hk))
  case anc15 => exact readsAs_of_ofNumber (Reg.ofNumber_anc 15) rfl
  case anc16 => exact readsAs_of_ofNumber (Reg.ofNumber_anc 16) rfl
  case anc17 => exact readsAs_of_ofNumber (Reg.ofNumber_anc 17) rfl
  case cw =>
    exact fun k => readsAs_of_ofNumber (Reg.ofNumber_cw k) (BitVec.toNat_setWidth_of_le (by decide))
  case unmapped => exact fun a ha => exec_rdreg_of_unmapped s (Reg.ofNumber_unmapped ha)

end Sys2Proof.Machine
end

section
/-! Errors and phases (60_exceptions.md): how a command ends (R168, R169), the matrix of the phases with the moves
between them (R174), and phase ERROR (R170). -/

namespace Sys2Proof.Machine

/-! ### How a command ends -/

theorem Err.code_eq_seqErr_iff (e : Err) : e.code = Err.seqErr.code ↔ e = .seqErr := by cases e <;> decide

theorem BuildOnly.phase {s t : State} (h : BuildOnly s t) : t.phase = s.phase := by
  unfold BuildOnly at h
  rw [h]

/-- The phase that a command without error leaves (R174): `START` and `EOS` alone move it. -/
def phaseAfter (i : Instr) (p : Phase) : Phase :=
  match i with
  | .start => .run
  | .eos => .done
  | _ => p

theorem phaseAfter_of_ne {i : Instr} (hstart : i ≠ .start) (heos : i ≠ .eos) (p : Phase) : phaseAfter i p = p := by
  cases i with
  | start => exact absurd rfl hstart
  | eos => exact absurd rfl heos
  | wrsid | wrctl | produce | rdreg | enc4 | enc8 => rfl

/-- The command `i` takes `s` to `t` without error: the phase of `s` accepts it, the phase of `t` is the one it leaves,
and its response has code 0. -/
structure Succeeds (i : Instr) (s t : State) : Prop where
  accepted : accepts s.phase i = true
  phase : t.phase = phaseAfter i s.phase
  response : ∃ r : Response, t.responses = s.responses ++ [r] ∧ r.err = 0

/-- An accepted command fails on its operands, which is never `SEQ_ERR`, or succeeds (R169, step 3).
`exec_next` does not say which error it is, so the checks of each command are read here. -/
theorem exec_of_accepts {i : Instr} {s t : State} (ha : accepts s.phase i = true) (h : exec i s = .next t) :
    (∃ e, e ≠ .seqErr ∧ t = s.raise e) ∨ Succeeds i s t := by
  cases i with
  | wrsid k d =>
    rw [exec_wrsid_of_config (by simpa [accepts] using ha)] at h
    cases h
    exact .inr ⟨ha, rfl, _, rfl, rfl⟩
  | wrctl l e =>
    rw [exec_wrctl_of_config (by simpa [accepts] using ha)] at h
    cases h
    exact .inr ⟨ha, rfl, _, rfl, rfl⟩
  | start =>
    rw [exec_start_of_config (by simpa [accepts] using ha)] at h
    split at h
    · cases h
      exact .inl ⟨.cfgErr, by decide, rfl⟩
    · cases h
      exact .inr ⟨ha, rfl, _, rfl, rfl⟩
  | produce | eos =>
    have hp : s.phase = .run := by simpa [accepts] using ha
    simp only [exec, execProduce, execEos, if_pos hp] at h
    split at h
    · cases h
      exact .inr ⟨ha, rfl, _, rfl, rfl⟩
    · split at h
      · next hl =>
        split at h
        · cases h
        · next out u hb =>
          have hu : BuildOnly s u := State.buildFrame_buildOnly hl hb
          cases h
          exact .inr ⟨ha, by simp [phaseAfter, hu.phase], .frame out, by simp [hu.responses], rfl⟩
      · cases h
        exact .inl ⟨.lenErr, by decide, rfl⟩
  | rdreg a =>
    cases hr : Reg.ofNumber a with
    | none =>
      rw [exec_rdreg_of_unmapped s hr] at h
      cases h
      exact .inl ⟨.addrErr, by decide, rfl⟩
    | some r =>
      simp only [exec, execRdreg, hr] at h
      cases h
      exact .inr ⟨ha, rfl, _, rfl, rfl⟩
  | enc4 | enc8 =>
    cases h
    exact .inr ⟨ha, rfl, _, rfl, rfl⟩

/-- A command raises an error, which is `SEQ_ERR` exactly when the phase does not accept it, or succeeds. -/
theorem exec_raises_or_succeeds {i : Instr} {s t : State} (h : exec i s = .next t) :
    (∃ e, (e = .seqErr ↔ accepts s.phase i = false) ∧ t = s.raise e) ∨ Succeeds i s t := by
  cases ha : accepts s.phase i with
  | false =>
    rw [exec_of_not_accepts ha] at h
    cases h
    exact .inl ⟨.seqErr, by simp, rfl⟩
  | true =>
    obtain ⟨e, hne, rfl⟩ | hok := exec_of_accepts ha h
    · exact .inl ⟨e, by simp [hne], rfl⟩
    · exact .inr hok

/-! ### The response that a step appends -/

theorem Succeeds.err_eq_zero {i : Instr} {s t : State} {r : Response} (h : Succeeds i s t)
    (hr : t.responses = s.responses ++ [r]) : r.err = 0 := by
  obtain ⟨r', hr', hzero⟩ := h.response
  obtain rfl : r' = r := by simpa [hr'] using hr
  exact hzero

theorem State.response_of_raise {s : State} {e : Err} {r : Response}
    (hr : (s.raise e).responses = s.responses ++ [r]) : r = { err := e.code, data := 0, out := none } := by
  simpa [eq_comm] using hr

/-- How a step on a command word ends, by its response `r`: a raised error, or the word is that of a command which
succeeds. -/
theorem CommandStep.raises_or_succeeds {s t : State} {w : CmdWord} {r : Response} (h : CommandStep s w t)
    (hr : t.responses = s.responses ++ [r]) :
    (∃ e : Err, t = s.raise e ∧ r = { err := e.code, data := 0, out := none }) ∨
      ∃ i, decode w = .ok i ∧ Succeeds i s t ∧ r.err = 0 := by
  obtain ⟨-, -, rfl⟩ | ⟨i, hd, hexec⟩ := h.illegal_or_exec
  · exact .inl ⟨_, rfl, State.response_of_raise hr⟩
  · obtain ⟨e, -, rfl⟩ | hok := exec_raises_or_succeeds hexec
    · exact .inl ⟨e, rfl, State.response_of_raise hr⟩
    · exact .inr ⟨i, hd, hok, hok.err_eq_zero hr⟩

/-- Settles O13: a response with a code other than 0 is that of `State.raise`, and `State.raise_eq` writes out the whole
next state. -/
theorem errorsArePrecise : Obligations.ErrorsArePrecise := by
  unfold Obligations.ErrorsArePrecise
  intro s t w r h hr herr
  obtain ⟨e, rfl, rfl⟩ | ⟨i, -, -, hzero⟩ := h.raises_or_succeeds hr
  · exact ⟨e.code_le, rfl, rfl, s.raise_eq e⟩
  · exact absurd hzero herr

/-! ### The phases -/

/-- `SEQ_ERR` is the answer to exactly the commands that the matrix refuses (R174). -/
theorem exec_err_eq_seqErr_iff {i : Instr} {s t : State} {r : Response} (h : exec i s = .next t)
    (hr : t.responses = s.responses ++ [r]) : r.err = Err.seqErr.code ↔ accepts s.phase i = false := by
  obtain ⟨e, hseq, rfl⟩ | hok := exec_raises_or_succeeds h
  · rw [State.response_of_raise hr, ← hseq]
    exact e.code_eq_seqErr_iff
  · rw [hok.err_eq_zero hr, hok.accepted]
    exact iff_of_false Err.seqErr.code_ne_zero.symm Bool.noConfusion

/-- Settles O14: the matrix is `exec_err_eq_seqErr_iff`; an error leaves phase ERROR, and a command without error leaves
`phaseAfter` of a phase that accepts it. -/
theorem phaseMatrixAndTransitions : Obligations.PhaseMatrixAndTransitions := by
  unfold Obligations.PhaseMatrixAndTransitions
  refine ⟨?matrix, ?moves, ?reset⟩
  case matrix =>
    intro s t w i r h hd hr
    obtain ⟨e, hillegal, -⟩ | ⟨j, hj, hexec⟩ := h.illegal_or_exec
    · cases hd.symm.trans hillegal
    · cases hd.symm.trans hj
      exact exec_err_eq_seqErr_iff hexec hr
  case moves =>
    intro s t w r h hr
    obtain ⟨e, rfl, rfl⟩ | ⟨i, hd, hok, hzero⟩ := h.raises_or_succeeds hr
    · have hcode : e.code ≠ 0 := e.code_ne_zero
      exact ⟨fun _ => s.raise_phase e, fun h0 => absurd h0 hcode, fun h0 => absurd h0 hcode,
        fun h0 => absurd h0 hcode⟩
    · refine ⟨fun hne => absurd hzero hne, fun _ hstart => ?_, fun _ heos => ?_, fun _ hstart heos => ?_⟩
      · cases hd.symm.trans hstart
        exact ⟨beq_iff_eq.1 hok.accepted, hok.phase⟩
      · cases hd.symm.trans heos
        exact ⟨beq_iff_eq.1 hok.accepted, hok.phase⟩
      · rw [hok.phase]
        exact phaseAfter_of_ne (fun hi => hstart (hi ▸ hd)) (fun hi => heos (hi ▸ hd)) s.phase
  case reset =>
    intro s t rest hp hstep
    cases (step_of_pending_rst hp).symm.trans hstep
    exact s.applyReset_phase

/-! ### Phase ERROR -/

/-- In phase ERROR an error is reported in the response alone: the code kept is the first (R168). -/
theorem State.raise_of_error {s : State} (hp : s.phase = .error) (e : Err) :
    s.raise e = s.respond { err := e.code, data := 0, out := none } := by
  rw [State.raise, State.recordError, if_pos hp]

theorem exec_rdreg_of_mapped {a : Byte} {g : Reg} (s : State) (h : Reg.ofNumber a = some g) :
    exec (.rdreg a) s = .next (s.respond (.value ((s.readReg g).setWidth 16))) := by
  simp only [exec, execRdreg, h]

/-- In phase ERROR a command does nothing but respond (R170). -/
theorem exec_responds_of_error {s : State} (hp : s.phase = .error) (i : Instr) :
    ∃ r, exec i s = .next (s.respond r) := by
  cases i with
  | wrsid | wrctl | start | produce | eos =>
    rw [exec_of_not_accepts (by rw [hp]; rfl), State.raise_of_error hp]
    exact ⟨_, rfl⟩
  | rdreg a =>
    cases hr : Reg.ofNumber a with
    | none =>
      rw [exec_rdreg_of_unmapped s hr, State.raise_of_error hp]
      exact ⟨_, rfl⟩
    | some g => exact ⟨_, exec_rdreg_of_mapped s hr⟩
  | enc4 v => exact ⟨_, exec_enc4 v s⟩
  | enc8 b => exact ⟨_, exec_enc8 b s⟩

/-- A response is on the host's side: it leaves the block as it is. -/
theorem State.respond_sameBlock (s : State) (r : Response) : SameBlock s (s.respond r) := rfl

theorem CommandStep.sameBlock_of_error {s t : State} {w : CmdWord} (h : CommandStep s w t) (hp : s.phase = .error) :
    SameBlock s t := by
  obtain ⟨-, -, rfl⟩ | ⟨i, -, hexec⟩ := h.illegal_or_exec
  · rw [State.raise_of_error hp]
    exact s.respond_sameBlock _
  · obtain ⟨r, hr⟩ := exec_responds_of_error hp i
    cases hr.symm.trans hexec
    exact s.respond_sameBlock r

/-- Settles O15: in phase ERROR every command is a response alone, and each clause names the response. -/
theorem errorPhaseIsLeftByResetOnly : Obligations.ErrorPhaseIsLeftByResetOnly := by
  unfold Obligations.ErrorPhaseIsLeftByResetOnly
  intro s hp
  refine ⟨fun _ _ h => h.sameBlock_of_error hp, ?refused, ?illegal, ?unmapped,
    fun _ _ hg => exec_rdreg_of_mapped s hg, fun v => exec_enc4 v s, fun b => exec_enc8 b s, ?reset⟩
  case refused =>
    intro i ha
    rw [exec_of_not_accepts (by rw [hp]; exact ha), State.raise_of_error hp]
    rfl
  case illegal =>
    intro w fin scf rest hpending hw
    obtain ⟨e, hd⟩ := decode_error_of_not_wellFormed hw
    rw [step_of_pending_illegal hpending hd, State.raise_of_error hp]
    rfl
  case unmapped =>
    intro a ha
    rw [exec_rdreg_of_unmapped s ha, State.raise_of_error hp]
    rfl
  case reset =>
    exact fun rest hpending => ⟨_, step_of_pending_rst hpending, s.applyReset_phase, s.applyReset_errcode⟩

end Sys2Proof.Machine
end

section
/-! Decoding and encoding (30_encoding.md): the rows of the opcode map are told apart by their opcode (R64, R70), so a
word decodes by the one row that takes it; from there the round trip in both directions. -/

namespace Sys2Proof

/-! ### One row for a word -/

/-- Every mask covers field `op`, so a row that takes a word has the word's opcode (R64). -/
theorem OpcodeRow.opField_of_takes {r : OpcodeRow} {w : CmdWord} (hr : r ∈ opcodeRows) (h : r.takes w = true) :
    opField r.pattern = opField w := by
  have hmask : ∀ r ∈ opcodeRows, opField r.mask = BitVec.allOnes 4 := by
    simp only [opcodeRows, List.forall_mem_cons]
    decide
  obtain ⟨hop, -, -⟩ := (r.takes_iff_fields w).1 h
  rw [← hop, hmask r hr, BitVec.and_allOnes]

theorem opcodeRows_opField_nodup : (opcodeRows.map fun r => opField r.pattern).Nodup := by decide

/-- Settles O5: the opcodes of the rows that take a word are all the word's own, and no two rows have the same. -/
theorem atMostOneRowTakesAWord : Obligations.AtMostOneRowTakesAWord := by
  unfold Obligations.AtMostOneRowTakesAWord
  intro w
  let ops : List (BitVec 4) := (opcodeRows.filter fun r => r.takes w).map fun r => opField r.pattern
  have hnodup : ops.Nodup := opcodeRows_opField_nodup.sublist (List.filter_sublist.map _)
  have hsame : ∀ op ∈ ops, op = opField w := by
    intro op hop
    obtain ⟨r, hr, rfl⟩ := List.mem_map.1 hop
    obtain ⟨hmem, htakes⟩ := List.mem_filter.1 hr
    exact OpcodeRow.opField_of_takes hmem htakes
  rw [List.eq_replicate_of_mem hsame, List.nodup_replicate] at hnodup
  simpa [ops] using hnodup

/-- A word is decoded by whichever row takes it. -/
theorem decode_of_takes {r : OpcodeRow} {w : CmdWord} (hr : r ∈ opcodeRows) (h : r.takes w = true) :
    decode w = .ok (r.build w) := by
  cases hfind : opcodeRows.find? (fun r => r.takes w) with
  | none => exact absurd h (List.find?_eq_none.1 hfind r hr)
  | some q =>
    have hq : q ∈ opcodeRows := List.mem_of_find?_eq_some hfind
    have htakes : q.takes w = true := List.find?_some (p := fun r : OpcodeRow => r.takes w) hfind
    have hop : opField q.pattern = opField r.pattern :=
      (OpcodeRow.opField_of_takes hq htakes).trans (OpcodeRow.opField_of_takes hr h).symm
    have hqr : q = r := List.inj_on_of_nodup_map opcodeRows_opField_nodup hq hr hop
    simp only [decode, hfind, hqr]

/-! ### The rows one by one (30_encoding.md R64, R67) -/

/-- A row decodes the words whose fields it asks for. -/
theorem decode_mkWord {r : OpcodeRow} (hr : r ∈ opcodeRows) {op : BitVec 4} {a d : Byte}
    (hop : op &&& opField r.mask = opField r.pattern) (ha : a &&& aField r.mask = aField r.pattern)
    (hd : d &&& dField r.mask = dField r.pattern) : decode (mkWord op a d) = .ok (r.build (mkWord op a d)) := by
  apply decode_of_takes hr
  rw [OpcodeRow.takes_iff_fields]
  simpa using ⟨hop, ha, hd⟩

theorem decode_mkWord_wrsid {a : Byte} (d : Byte) (ha : a.toNat < 32) :
    decode (mkWord 1 a d) = .ok (.wrsid (a.extractLsb' 0 5) d) := by
  rw [decode_mkWord (r := opcodeRows[0]) (List.getElem_mem _) rfl ((and_highMask_eq_zero_iff a 5).2 ha)
    BitVec.and_zero]
  simp [opcodeRows]

theorem decode_mkWord_wrctl {d : Byte} (hd : d.toNat < 8) :
    decode (mkWord 2 0 d) = .ok (.wrctl (Layout.ofBits (d.extractLsb' 1 2)) (d.getLsbD 0)) := by
  rw [decode_mkWord (r := opcodeRows[1]) (List.getElem_mem _) rfl rfl ((and_highMask_eq_zero_iff d 3).2 hd)]
  simp [opcodeRows]

theorem decode_mkWord_start : decode (mkWord 3 0 0) = .ok .start := rfl

theorem decode_mkWord_produce : decode (mkWord 4 0 0) = .ok .produce := rfl

theorem decode_mkWord_eos : decode (mkWord 5 0 0) = .ok .eos := rfl

theorem decode_mkWord_rdreg (a : Byte) : decode (mkWord 6 a 0) = .ok (.rdreg a) := by
  rw [decode_mkWord (r := opcodeRows[5]) (List.getElem_mem _) rfl BitVec.and_zero rfl]
  simp [opcodeRows]

theorem decode_mkWord_enc4 {d : Byte} (hd : d.toNat < 16) :
    decode (mkWord 7 0 d) = .ok (.enc4 (d.extractLsb' 0 4)) := by
  rw [decode_mkWord (r := opcodeRows[6]) (List.getElem_mem _) rfl rfl ((and_highMask_eq_zero_iff d 4).2 hd)]
  simp [opcodeRows]

theorem decode_mkWord_enc8 (d : Byte) : decode (mkWord 8 0 d) = .ok (.enc8 d) := by
  rw [decode_mkWord (r := opcodeRows[7]) (List.getElem_mem _) rfl rfl BitVec.and_zero]
  simp [opcodeRows]

/-! ### The operands -/

theorem Layout.bits_ofBits (b : BitVec 2) : (Layout.ofBits b).bits = b := by
  revert b
  decide

/-- A value that fits in the low `k` bits is its low `k` bits, widened. -/
theorem setWidth_extractLsb'_of_lt {n k : Nat} {x : BitVec n} (h : x.toNat < 2 ^ k) :
    (x.extractLsb' 0 k).setWidth n = x := by
  apply BitVec.eq_of_toNat_eq
  simp [Nat.mod_eq_of_lt h, Nat.mod_eq_of_lt x.isLt]

theorem extractLsb'_setWidth {n k : Nat} (h : k ≤ n) (x : BitVec k) : (x.setWidth n).extractLsb' 0 k = x := by
  rw [BitVec.extractLsb'_setWidth_of_le (by omega), BitVec.extractLsb'_eq_self]

theorem toNat_setWidth_lt {n k : Nat} (h : k ≤ n) (x : BitVec k) : (x.setWidth n).toNat < 2 ^ k := by
  rw [BitVec.toNat_setWidth_of_le h]
  exact x.isLt

/-- Field `d` of `WRCTL` is its two operands, when no other bit is set (44_config_access.md R151). -/
theorem ctrl_operands_of_lt {d : Byte} (h : d.toNat < 8) :
    (0 : BitVec 5) ++ d.extractLsb' 1 2 ++ BitVec.ofBool (d.getLsbD 0) = d := by
  revert d
  decide

/-! ### The round trip -/

/-- Settles O3: each command's word has the fields that the command's row asks for, and the row reads the operands
back from them. -/
theorem decodeOfEncodeIsTheCommand : Obligations.DecodeOfEncodeIsTheCommand := by
  unfold Obligations.DecodeOfEncodeIsTheCommand
  intro i
  cases i with
  | wrsid k d =>
    have hk : (k.setWidth 8).toNat < 32 := toNat_setWidth_lt (by decide) k
    rw [encode, decode_mkWord_wrsid d hk, extractLsb'_setWidth (by decide)]
  | wrctl layout ie => cases layout <;> cases ie <;> rfl
  | start => exact decode_mkWord_start
  | produce => exact decode_mkWord_produce
  | eos => exact decode_mkWord_eos
  | rdreg a => exact decode_mkWord_rdreg a
  | enc4 v =>
    have hv : (v.setWidth 8).toNat < 16 := toNat_setWidth_lt (by decide) v
    rw [encode, decode_mkWord_enc4 hv, extractLsb'_setWidth (by decide)]
  | enc8 b => exact decode_mkWord_enc8 b

/-- Settles O4: an accepted word has the fields of one row (`RowFields`); the command read from them encodes to the same
fields, since the bits that the row does not read are 0. -/
theorem encodeOfDecodeIsTheWord : Obligations.EncodeOfDecodeIsTheWord := by
  unfold Obligations.EncodeOfDecodeIsTheWord
  intro w i h
  have hrow : RowFields (opField w) (aField w) (dField w) := (decode_ok_iff_fields w).1 ⟨i, h⟩
  rw [← mkWord_fields w] at h ⊢
  generalize opField w = op, aField w = a, dField w = d at h hrow ⊢
  obtain ⟨rfl, ha⟩ | ⟨rfl, rfl, hd⟩ | ⟨rfl, rfl, rfl⟩ | ⟨rfl, rfl, rfl⟩ | ⟨rfl, rfl, rfl⟩ | ⟨rfl, rfl⟩ |
    ⟨rfl, rfl, hd⟩ | ⟨rfl, rfl⟩ := hrow
  · cases h.symm.trans (decode_mkWord_wrsid d ha)
    rw [encode, setWidth_extractLsb'_of_lt ha]
  · cases h.symm.trans (decode_mkWord_wrctl hd)
    rw [encode, Layout.bits_ofBits, ctrl_operands_of_lt hd]
  · cases h.symm.trans decode_mkWord_start
    rfl
  · cases h.symm.trans decode_mkWord_produce
    rfl
  · cases h.symm.trans decode_mkWord_eos
    rfl
  · cases h.symm.trans (decode_mkWord_rdreg a)
    rfl
  · cases h.symm.trans (decode_mkWord_enc4 hd)
    rw [encode, setWidth_extractLsb'_of_lt hd]
  · cases h.symm.trans (decode_mkWord_enc8 d)
    rfl

/-- Settles O1: the nine words are those that `encode` gives the nine commands. -/
theorem sampleWordsDecode : Obligations.SampleWordsDecode := by
  unfold Obligations.SampleWordsDecode
  have hdecode := decodeOfEncodeIsTheCommand
  exact ⟨hdecode (.wrsid 0 0x54), hdecode (.wrsid 31 0xFF), hdecode (.wrctl .joint true), hdecode .start,
    hdecode .produce, hdecode .eos, hdecode (.rdreg 0x21), hdecode (.enc4 9), hdecode (.enc8 0x84)⟩

end Sys2Proof

namespace Sys2Proof.Machine

/-! ### Presented words -/

theorem step_of_pending_command {s : State} {w : CmdWord} {fin : List Byte} {scf : Vector Byte 4}
    {rest : List HostEvent} {i : Instr} (hp : s.pending = .command w fin scf :: rest) (hd : decode w = .ok i) :
    step s = exec i s := by
  simp [step, State.presented, hp, hd]

theorem State.fin_of_pending {s : State} {w : CmdWord} {fin : List Byte} {scf : Vector Byte 4}
    {rest : List HostEvent} (hp : s.pending = .command w fin scf :: rest) : s.fin = fin := by
  simp [State.fin, hp]

theorem State.scf_of_pending {s : State} {w : CmdWord} {fin : List Byte} {scf : Vector Byte 4}
    {rest : List HostEvent} (hp : s.pending = .command w fin scf :: rest) : s.scf = scf := by
  simp [State.scf, hp]

/-- Settles O6: the step on a word that decodes, and the operands at the head of the pending events. -/
theorem stepRunsTheDecodedCommand : Obligations.StepRunsTheDecodedCommand := by
  unfold Obligations.StepRunsTheDecodedCommand
  intro s w fin scf rest i hp hd
  exact ⟨step_of_pending_command hp hd, State.fin_of_pending hp, State.scf_of_pending hp⟩

/-- A command word is read back from its number in any width that holds it. -/
theorem cmdWord_mod_two_pow (w : CmdWord) {n : Nat} (hn : 20 ≤ n) : w.toNat % 2 ^ n = w.toNat :=
  Nat.mod_eq_of_lt (w.isLt.trans_le (Nat.pow_le_pow_right (by decide) hn))

/-- Settles O7: the number of a word gives the word back, and the word of `i` decodes to `i`. -/
theorem presentedWordRuns : Obligations.PresentedWordRuns := by
  unfold Obligations.PresentedWordRuns
  intro s i n hn
  have hmod := cmdWord_mod_two_pow (encode i) hn
  have hdecode : decode (BitVec.ofNat 20 ((encode i).toNat % 2 ^ n)) = .ok i := by
    rw [hmod, BitVec.ofNat_toNat, BitVec.setWidth_eq]
    exact decodeOfEncodeIsTheCommand i
  constructor
  · exact step_of_pending_command (State.present_pending s _) hdecode
  · rw [decodeTableWord, if_pos (by rw [hmod]; exact (encode i).isLt), hdecode]
    rfl

/-- Settles O10. -/
theorem resetKeepsTheHostSide : Obligations.ResetKeepsTheHostSide := by
  unfold Obligations.ResetKeepsTheHostSide
  intro s rest hp
  refine ⟨s.applyReset, step_of_pending_rst hp, s.applyReset_par, ?_, s.applyReset_responses⟩
  rw [s.applyReset_pending, hp, List.tail_cons]

/-- Settles O11. -/
theorem waitingChangesNothing : Obligations.WaitingChangesNothing := by
  unfold Obligations.WaitingChangesNothing
  intro s hp
  simp [step, State.presented, hp]

end Sys2Proof.Machine
end

section
/-! The block code decodes every word (95_test_vectors.md V4), and the checksum as a function of the low seven bits
(41_control_message_cycle.md R95). -/

namespace Sys2Proof.Machine

/-! ### The block code is perfect -/

theorem exists_bct_near (w : Codeword) : ∃ v : BitVec 4, hammingDistance w (bct v) ≤ 1 := by
  revert w
  decide

/-- Settles O24: two codewords within distance 1 of a word would be at distance 2 or less from each other, and
codewords are 3 apart. -/
theorem blockCodeIsPerfect : Obligations.BlockCodeIsPerfect := by
  unfold Obligations.BlockCodeIsPerfect
  intro w
  obtain ⟨v, hv⟩ := exists_bct_near w
  refine ⟨v, hv, fun u hu => ?_⟩
  by_contra hne
  have hapart := three_le_hammingDistance_bct hne
  have htriangle := hammingDistance_triangle_left (bct u) (bct v) w
  omega

/-! ### The checksum -/

/-- Settles O27: a message is its body and the digits of the body's checksum (`message_eq`), and two digits give their
byte back (`hexValue_digits`). -/
theorem checksumOfEveryMessageVerifies : Obligations.ChecksumOfEveryMessageVerifies := by
  unfold Obligations.ChecksumOfEveryMessageVerifies
  intro s
  unfold State.nextMessage
  generalize templateBody s.rot s.sid s.layout = body
  have hlow : (message s.par body).getD body.length 0 =
      hexDigit s.par.hexUpper (lowNibble (checksum s.par.ckStart body)) := by simp [message_eq]
  have hhigh : (message s.par body).getD (body.length + 1) 0 =
      hexDigit s.par.hexUpper (highNibble (checksum s.par.ckStart body)) := by simp [message_eq]
  have htake : (message s.par body).take body.length = body := by simp [message_eq]
  rw [message_length, show body.length + 3 - 3 = body.length from rfl,
    show body.length + 3 - 2 = body.length + 1 from rfl, hlow, hhigh, htake, hexValue_digits, checksum_toNat]

theorem toNat_mod_128_congr {b c : Byte} (h : ∀ p < 7, b.getLsbD p = c.getLsbD p) : b.toNat % 128 = c.toNat % 128 := by
  apply Nat.eq_of_testBit_eq
  intro p
  rw [show 128 = 2 ^ 7 from rfl, Nat.testBit_mod_two_pow, Nat.testBit_mod_two_pow]
  by_cases hp : p < 7
  · exact congrArg _ (h p hp)
  · simp [hp]

/-- Settles O28: the checksum sums the bytes modulo 128, and these are the same in both bodies. -/
theorem checksumIgnoresBitSeven : Obligations.ChecksumIgnoresBitSeven := by
  unfold Obligations.ChecksumIgnoresBitSeven
  intro ck x y hlength hbits
  have hmap : x.map (fun b => b.toNat % 128) = y.map (fun b => b.toNat % 128) := by
    apply List.ext_getElem (by simpa using hlength)
    intro j hx hy
    have hj : j < x.length := by simpa using hx
    simpa [hj, hlength ▸ hj] using toNat_mod_128_congr (hbits j hj)
  apply BitVec.eq_of_toNat_eq
  rw [checksum_toNat, checksum_toNat, List.map_drop, List.map_drop, hmap]

end Sys2Proof.Machine
end

section
/-! What a step does to the block, apart from the host's side: the cases of `exec_next` and `step_next` as one relation,
so that an invariant is proved once per case (10_state.md section 7). And what building a frame leaves, field by field
(43_frame_scheduler.md R131). -/

namespace Sys2Proof.Machine

/-! ### What a step does -/

/-- A command takes the block from `s` to `u`, and emits the frame `out` or none, before it responds. -/
inductive CommandEffect (s : State) : Option Frame → State → Prop
  /-- Nothing is written: a read, a table lookup, or `PRODUCE` with no bytes. -/
  | nothing : CommandEffect s none s
  /-- An error is recorded (60_exceptions.md R168). -/
  | error (e : Err) : CommandEffect s none (s.recordError e)
  /-- `WRSID` (44_config_access.md R150). -/
  | wrsid (hp : s.phase = .config) (k : BitVec 5) (d : Byte) :
      CommandEffect s none { s with sid := s.sid.set k.toNat d k.isLt }
  /-- `WRCTL` (R151). -/
  | wrctl (hp : s.phase = .config) (layout : Layout) (ie : Bool) :
      CommandEffect s none { s with ie := ie, layout := layout }
  /-- `START` (R152). -/
  | start (hp : s.phase = .config) (hclear : s.sidHoldsHash = false) : CommandEffect s none { s with phase := .run }
  /-- `EOS` with no bytes (43_frame_scheduler.md R134). -/
  | finish (hp : s.phase = .run) : CommandEffect s none { s with phase := .done }
  /-- `PRODUCE` or `EOS` with a whole frame (R132, R134). -/
  | build {fin : Frame} {scf : Vector Byte 4} {out : Option Frame} {u : State} {p : Phase} (hp : s.phase = .run)
      (hl : fin.length = s.fBytes) (hb : s.buildFrame fin scf = .ok (out, u)) (hphase : p = .run ∨ p = .done) :
      CommandEffect s out { u with phase := p }

theorem exec_effect {i : Instr} {s t : State} (h : exec i s = .next t) :
    ∃ (r : Response) (u : State), CommandEffect s r.out u ∧ t = u.respond r := by
  obtain hraise | hvalue | hwrsid | hwrctl | hstart | hproduce | heos | hbuilt := exec_next h
  · obtain ⟨e, rfl⟩ := hraise
    exact ⟨_, _, .error e, rfl⟩
  · obtain ⟨v, rfl, -⟩ := hvalue
    exact ⟨.value v, _, .nothing, rfl⟩
  · obtain ⟨k, d, -, hp, rfl⟩ := hwrsid
    exact ⟨.done, _, .wrsid hp k d, rfl⟩
  · obtain ⟨l, e, -, hp, rfl⟩ := hwrctl
    exact ⟨.done, _, .wrctl hp l e, rfl⟩
  · obtain ⟨-, hp, hclear, rfl⟩ := hstart
    exact ⟨.done, _, .start hp hclear, rfl⟩
  · obtain ⟨-, -, -, rfl⟩ := hproduce
    exact ⟨.done, _, .nothing, rfl⟩
  · obtain ⟨-, hp, -, rfl⟩ := heos
    exact ⟨.done, _, .finish hp, rfl⟩
  · obtain ⟨out, u, hp, hl, hb, ⟨-, rfl⟩ | ⟨-, rfl⟩⟩ := hbuilt
    · have hu : u.phase = .run := (State.buildFrame_buildOnly hl hb).phase.trans hp
      refine ⟨.frame out, { u with phase := .run }, .build hp hl hb (.inl rfl), ?_⟩
      rw [← hu]
    · exact ⟨.frame out, _, .build hp hl hb (.inr rfl), rfl⟩

/-- A step waits, resets, or has the effect of one command and responds. -/
theorem step_effect {s t : State} (h : step s = .next t) :
    t = s ∨ t = s.applyReset ∨ ∃ (r : Response) (u : State), CommandEffect s r.out u ∧ t = u.respond r := by
  obtain ⟨-, rfl⟩ | ⟨-, -, rfl⟩ | ⟨-, -, -, -, -, -, -, rfl⟩ | ⟨-, -, -, -, i, -, -, hexec⟩ := step_next h
  · exact .inl rfl
  · exact .inr (.inl rfl)
  · exact .inr (.inr ⟨_, _, .error .illegalCmd, rfl⟩)
  · exact .inr (.inr (exec_effect hexec))

/-- A property of the block that holds at reset, does not read the host's side, and is kept by the effect of every
command is kept by every step. -/
theorem step_keeps {P : State → Prop} (hreset : ∀ s : State, P s.applyReset)
    (hrespond : ∀ (s : State) (r : Response), P s → P (s.respond r))
    (heffect : ∀ {s u : State} {out : Option Frame}, P s → CommandEffect s out u → P u)
    {s t : State} (hs : P s) (h : step s = .next t) : P t := by
  obtain rfl | rfl | ⟨r, u, hu, rfl⟩ := step_effect h
  · exact hs
  · exact hreset s
  · exact hrespond u r (heffect hs hu)

theorem CommandEffect.par {s u : State} {out : Option Frame} (h : CommandEffect s out u) : u.par = s.par := by
  cases h with
  | error e => exact s.recordError_par e
  | build _ hl hb _ =>
    have hbuilt := State.buildFrame_buildOnly hl hb
    unfold BuildOnly at hbuilt
    rw [hbuilt]
  | nothing | wrsid | wrctl | start | finish => rfl

/-- Settles O12. -/
theorem parametersNeverChange : Obligations.ParametersNeverChange := by
  unfold Obligations.ParametersNeverChange
  intro s t h
  obtain rfl | rfl | ⟨r, u, hu, rfl⟩ := step_effect h
  · rfl
  · exact s.applyReset_par
  · exact hu.par

/-! ### What a built frame leaves -/

/-- `BuildFrame` on the frame `fin` takes `s` to `u` and emits `out`: `sa` is the state after `BuildAnc`, the current
slot holds the cells `m`, and the previous slot is stamped when the check is on (R131). -/
structure Builds (s : State) (fin : Frame) (scf : Vector Byte 4) (out : Option Frame) (sa : State) (m : Memory)
    (u : State) : Prop where
  buildAnc : s.buildAnc = .ok sa
  interleave : interleaveCells s.fBytes sa.codewords ((s.slot s.currentSlot).putAll 0 fin) = .ok m
  current : u.slot s.currentSlot = m
  previous : u.slot s.previousSlot =
    if s.ie then (s.slot s.previousSlot).putAll gapOff scf.toList else s.slot s.previousSlot
  block : u = { sa with cw := sa.codewords, fc := s.fc + 1, slot0 := u.slot0, slot1 := u.slot1 }
  emits : out = none ↔ s.ie = true ∧ s.fc = 0

theorem State.buildFrame_builds {s u : State} {fin : Frame} {scf : Vector Byte 4} {out : Option Frame}
    (hl : fin.length = s.fBytes) (h : s.buildFrame fin scf = .ok (out, u)) : ∃ sa m, Builds s fin scf out sa m u := by
  obtain ⟨s1, s2, hload, hstamp, rfl⟩ := State.buildFrame_ok h
  rw [State.loadAndInsert_eq s hl] at hload
  cases hanc : s.buildAnc with
  | error e => simp [hanc] at hload
  | ok sa =>
    simp only [hanc] at hload
    cases hcells : interleaveCells s.fBytes sa.codewords ((s.slot s.currentSlot).putAll 0 fin) with
    | error e => simp [hcells] at hload
    | ok m =>
      simp only [hcells] at hload
      cases hload
      have honly : AncOnly s sa := State.buildAnc_ancOnly hanc
      have hie : sa.ie = s.ie := by rw [honly]
      have hfc : sa.fc = s.fc := by rw [honly]
      have hcur : (sa.expand.setSlot s.currentSlot m).currentSlot = s.currentSlot := by
        simp [State.currentSlot, hfc]
      have hprev : (sa.expand.setSlot s.currentSlot m).previousSlot = s.previousSlot := by
        rw [State.previousSlot, hcur, State.previousSlot]
      have hslot : (sa.expand.setSlot s.currentSlot m).slot s.previousSlot = s.slot s.previousSlot := by
        rw [State.previousSlot, State.setSlot_slot_other, State.expand_slot, honly.slot]
      have hset (v : State) (n : Memory) : (v.setSlot s.previousSlot n).slot s.currentSlot = v.slot s.currentSlot :=
        State.setSlot_slot_ne v (SlotId.ne_other _) n
      refine ⟨sa, m, ?_⟩
      obtain ⟨hoff, rfl, f, rfl, -⟩ | ⟨hon, rfl, hemit⟩ := State.stampAndEmit_ok hstamp
      · have hoff : s.ie = false := by simpa [hie] using hoff
        exact {
          buildAnc := hanc
          interleave := hcells
          current := by simp
          previous := by simpa [hoff] using hslot
          block := by rw [← hfc]; cases s.currentSlot <;> rfl
          emits := by simp [hoff] }
      · have hon : s.ie = true := by simpa [hie] using hon
        exact {
          buildAnc := hanc
          interleave := hcells
          current := by simp [hprev, hset]
          previous := by simp [hon, hprev, hslot]
          block := by rw [← hfc, hprev]; cases s.previousSlot <;> cases s.currentSlot <;> rfl
          emits := by
            obtain ⟨hzero, rfl⟩ | ⟨hpos, f, rfl, -⟩ := hemit
            · simp [hon, show s.fc = 0 by simpa [hfc] using hzero]
            · simp [show s.fc ≠ 0 by simpa [hfc] using hpos] }

end Sys2Proof.Machine
end

section
/-! The invariant of the block (10_state.md section 7), clause by clause: the slots and the codewords. Each clause is
kept by every step. -/

namespace Sys2Proof.Machine

/-! ### Two kinds of effect -/

/-- `u` is `s` but for the phase, the error code, the identity and `CTRL`: no frame was built. -/
def ControlOnly (s u : State) : Prop :=
  u = { s with phase := u.phase, errcode := u.errcode, sid := u.sid, ie := u.ie, layout := u.layout }

/-- A command builds a frame in phase RUN, or leaves all that building writes as it was. -/
theorem CommandEffect.controlOnly_or_builds {s u : State} {out : Option Frame} (h : CommandEffect s out u) :
    ControlOnly s u ∨ ∃ fin scf sa m v p, s.phase = .run ∧ fin.length = s.fBytes ∧ Builds s fin scf out sa m v ∧
      (p = .run ∨ p = .done) ∧ u = { v with phase := p } := by
  cases h with
  | nothing | wrsid | wrctl | start | finish => exact .inl rfl
  | error e =>
    refine .inl ?_
    unfold ControlOnly State.recordError
    split <;> rfl
  | build hp hl hb hphase =>
    obtain ⟨sa, m, hbuilds⟩ := State.buildFrame_builds hl hb
    exact .inr ⟨_, _, sa, m, _, _, hp, hl, hbuilds, hphase, rfl⟩

section
variable {s u sa : State} {fin : Frame} {scf : Vector Byte 4} {out : Option Frame} {m : Memory}

theorem Builds.ancOnly (h : Builds s fin scf out sa m u) : AncOnly s sa := State.buildAnc_ancOnly h.buildAnc

theorem Builds.fBytes (h : Builds s fin scf out sa m u) : u.fBytes = s.fBytes := by
  rw [h.block]
  exact h.ancOnly.fBytes

theorem Builds.fc (h : Builds s fin scf out sa m u) : u.fc = s.fc + 1 := by rw [h.block]

theorem SlotId.eq_other_of_ne : ∀ {i j : SlotId}, i ≠ j → i = j.other
  | .zero, .one, _ => rfl
  | .one, .zero, _ => rfl
  | .zero, .zero, h => absurd rfl h
  | .one, .one, h => absurd rfl h

/-- The two slots are the current and the previous one (43_frame_scheduler.md R130). -/
theorem State.forall_slot (s : State) {Q : SlotId → Prop} (hcurrent : Q s.currentSlot) (hprevious : Q s.previousSlot)
    (i : SlotId) : Q i := by
  by_cases hi : i = s.currentSlot
  · rw [hi]
    exact hcurrent
  · rw [SlotId.eq_other_of_ne hi]
    exact hprevious

/-! ### Canonical slots (R22, 20_memory.md R40) -/

theorem State.slotsCanonical_iff (s : State) :
    s.SlotsCanonical ↔ ∀ i, (s.slot i).wf = true ∧ (s.slot i).within s.fBytes = true :=
  ⟨State.slot_canonical, fun h => ⟨h .zero, h .one⟩⟩

/-- The four bytes of the gap lie in every frame (20_memory.md R41, R42). -/
theorem State.gap_le_fBytes (s : State) (scf : Vector Byte 4) : gapOff + scf.toList.length ≤ s.fBytes := by
  have hle := s.le_fBytes
  simp only [Vector.length_toList, gapOff]
  omega

theorem Builds.slotsCanonical (h : Builds s fin scf out sa m u) (hl : fin.length = s.fBytes) (hs : s.SlotsCanonical) :
    u.SlotsCanonical := by
  rw [State.slotsCanonical_iff] at hs ⊢
  rw [h.fBytes]
  refine s.forall_slot ?_ ?_
  · obtain ⟨hwf, hwithin⟩ := hs s.currentSlot
    rw [h.current]
    exact ⟨interleaveCells_wf h.interleave (Memory.putAll_wf hwf 0 fin),
      interleaveCells_within h.interleave (Memory.putAll_within hwithin (by omega))⟩
  · obtain ⟨hwf, hwithin⟩ := hs s.previousSlot
    rw [h.previous]
    split
    · exact ⟨Memory.putAll_wf hwf _ _, Memory.putAll_within hwithin (s.gap_le_fBytes scf)⟩
    · exact ⟨hwf, hwithin⟩

/-! ### Loaded slots (R26 (h)) -/

/-- From the second frame on, the previous slot is that of the frame before. -/
theorem State.previousSlot_eq {s : State} (h : 0 < s.fc) : s.previousSlot = SlotId.ofCounter (s.fc - 1) := by
  have hsucc := SlotId.ofCounter_succ (s.fc - 1)
  rw [Nat.sub_add_cancel h] at hsucc
  rw [State.previousSlot, State.currentSlot, hsucc, SlotId.other_other]

theorem Memory.putAll_isSome {f : Nat} {m : Memory} (h : Memory.full f m) (a : Nat) (bs : List Byte) :
    Memory.full f (m.putAll a bs) := by
  intro o ho
  rw [Memory.byte?_putAll]
  split
  · next hrange => simp [show o - a < bs.length by omega]
  · exact h o ho

theorem Builds.full_current (h : Builds s fin scf out sa m u) (hl : fin.length = s.fBytes) :
    Memory.full s.fBytes (u.slot s.currentSlot) := by
  intro o ho
  rw [h.current, interleaveCells_isSome h.interleave]
  exact Memory.putAll_full _ hl o ho

theorem Builds.full_previous (h : Builds s fin scf out sa m u) (hfull : Memory.full s.fBytes (s.slot s.previousSlot)) :
    Memory.full s.fBytes (u.slot s.previousSlot) := by
  rw [h.previous]
  split
  · exact Memory.putAll_isSome hfull _ _
  · exact hfull

theorem Builds.slotsLoaded (h : Builds s fin scf out sa m u) (hl : fin.length = s.fBytes) (hs : s.SlotsLoaded) :
    u.SlotsLoaded := by
  obtain ⟨hlast, -⟩ := hs
  rw [State.SlotsLoaded, h.fBytes, h.fc]
  refine ⟨fun _ => h.full_current hl, fun hfc => ?_⟩
  have hpos : 0 < s.fc := by omega
  have hall : ∀ i, Memory.full s.fBytes (u.slot i) :=
    s.forall_slot (h.full_current hl) (h.full_previous (s.previousSlot_eq hpos ▸ hlast hpos))
  exact ⟨hall .zero, hall .one⟩

/-! ### Codewords (R26 (c), (d)) -/

/-- The codeword file is the encoding of the ancillary bytes. -/
theorem State.codewords_of_cw {s : State} (h : s.cw = s.codewords) : s.CodewordsOfAnc ∧ s.LowCodewordsZero := by
  constructor
  · intro k
    simp only [h]
    exact ⟨s.codewords_even k k.isLt, s.codewords_odd k k.isLt⟩
  · intro i
    simp only [h]
    exact s.codewords_low i (by omega)

theorem Builds.cw (h : Builds s fin scf out sa m u) : u.cw = u.codewords := by
  have hcw : u.cw = sa.codewords := by rw [h.block]
  rw [hcw]
  exact State.codewords_congr (by rw [h.block]) (by rw [h.block]) (by rw [h.block])

theorem State.applyReset_cw (s : State) : s.applyReset.cw = s.applyReset.codewords := by
  apply Vector.ext
  intro i hi
  rw [State.codewords_getElem, State.codewordOf, s.applyReset_ancByte]
  exact (s.applyReset_cw_getElem ⟨i, hi⟩).trans (by split <;> rfl)

end

/-! ### The statements on slots and codewords -/

/-- Settles O47: loading, interleaving and stamping keep the canonical form, and nothing else writes a slot. -/
theorem slotsStayCanonical : Obligations.SlotsStayCanonical := by
  unfold Obligations.SlotsStayCanonical
  intro s t
  refine step_keeps (P := State.SlotsCanonical) (fun s => ⟨⟨rfl, rfl⟩, ⟨rfl, rfl⟩⟩) (fun s r hs => hs) ?_
  intro s u out hs h
  obtain hcontrol | ⟨fin, scf, sa, m, v, p, -, hl, hbuilds, -, rfl⟩ := h.controlOnly_or_builds
  · rw [hcontrol]
    exact hs
  · exact hbuilds.slotsCanonical hl hs

/-- Settles O48: a build fills the current slot, and the previous slot is the one that the last build filled. -/
theorem loadedSlotsStayLoaded : Obligations.LoadedSlotsStayLoaded := by
  unfold Obligations.LoadedSlotsStayLoaded
  intro s t
  refine step_keeps (P := State.SlotsLoaded)
    (fun s => ⟨fun h => absurd h (Nat.lt_irrefl 0), fun h => absurd h (Nat.not_lt_zero 1)⟩) ?_ ?_
  · intro s r hs
    exact hs
  · intro s u out hs h
    obtain hcontrol | ⟨fin, scf, sa, m, v, p, -, hl, hbuilds, -, rfl⟩ := h.controlOnly_or_builds
    · rw [hcontrol]
      exact hs
    · exact hbuilds.slotsLoaded hl hs

/-- Settles O49: a build writes the codewords of the ancillary bytes it leaves, and nothing else writes either. -/
theorem codewordsStayThoseOfAnc : Obligations.CodewordsStayThoseOfAnc := by
  unfold Obligations.CodewordsStayThoseOfAnc
  intro s t hanc hlow
  refine step_keeps (P := fun s => s.CodewordsOfAnc ∧ s.LowCodewordsZero)
    (fun s => State.codewords_of_cw s.applyReset_cw) (fun s r hs => hs) ?_ ⟨hanc, hlow⟩
  intro s u out hs h
  obtain hcontrol | ⟨fin, scf, sa, m, v, p, -, hl, hbuilds, -, rfl⟩ := h.controlOnly_or_builds
  · rw [hcontrol]
    exact hs
  · have hv := State.codewords_of_cw hbuilds.cw
    exact hv

end Sys2Proof.Machine
end

section
/-! The invariant of the block (10_state.md section 7), clause by clause: the position of the cycle, the error record
and the identity of a run. -/

namespace Sys2Proof.Machine

section
variable {s u sa : State} {fin : Frame} {scf : Vector Byte 4} {out : Option Frame} {m : Memory}

/-! ### The position of the cycle (R26 (a), (b), (f), (g)) -/

/-- The rows of the table of R100 keep what R26 (a) and (b) say of `MLEN`, `CUR` and `ROT`. -/
theorem cyclePosition_cases (n : Nat) :
    (n = 0 ∧ cyclePosition n = (.a, 0, 0)) ∨ (∃ c ≤ 6, cyclePosition n = (.b, c, 6)) ∨
      (∃ c ≤ 13, cyclePosition n = (.c, c, 13)) ∨ ∃ c ≤ 38, cyclePosition n = (.a, c, 38) := by
  cases n with
  | zero => exact .inl ⟨rfl, rfl⟩
  | succ n =>
    have hlt : n % 19 < 19 := Nat.mod_lt n (by decide)
    rw [cyclePosition]
    split
    · exact .inr (.inl ⟨_, by omega, rfl⟩)
    · split
      · exact .inr (.inr (.inl ⟨_, by omega, rfl⟩))
      · exact .inr (.inr (.inr ⟨_, by omega, rfl⟩))

theorem State.range_and_length_of_cycle (h : s.CycleAtFrameCount) : s.CursorInRange ∧ s.LengthNamesTemplate := by
  obtain ⟨hn, hrow⟩ | ⟨c, hc, hrow⟩ | ⟨c, hc, hrow⟩ | ⟨c, hc, hrow⟩ := cyclePosition_cases s.fc
  all_goals
    obtain ⟨hrot, hcur, hmlen⟩ : s.rot = _ ∧ s.cur.toNat = _ ∧ s.mlen.toNat = _ := by
      simpa only [Prod.mk.injEq] using h.trans hrow
    refine ⟨⟨by omega, by omega⟩, ?_⟩
  · exact .inl ⟨BitVec.eq_of_toNat_eq hmlen, hrot, BitVec.eq_of_toNat_eq hcur, hn⟩
  · exact .inr (.inl ⟨BitVec.eq_of_toNat_eq hmlen, hrot⟩)
  · exact .inr (.inr (.inl ⟨BitVec.eq_of_toNat_eq hmlen, hrot⟩))
  · exact .inr (.inr (.inr ⟨BitVec.eq_of_toNat_eq hmlen, hrot⟩))

/-- A built frame moves the cycle by the three bytes of `BuildAnc`, which is one row of the table (R100). -/
theorem Builds.cycle (h : Builds s fin scf out sa m u) (hs : s.CycleAtFrameCount) : u.CycleAtFrameCount := by
  obtain ⟨hrange, -⟩ := State.range_and_length_of_cycle hs
  obtain ⟨sa', hanc, -, -, hposition⟩ := State.buildAnc_of_range hrange
  obtain rfl : sa = sa' := Except.ok.inj (h.buildAnc.symm.trans hanc)
  have hs' : s.position = cyclePosition s.fc := hs
  calc u.position = sa.position := by rw [h.block]; rfl
    _ = cyclePosition u.fc := by rw [hposition, hs', cyclePosition_succ, h.fc]

/-- A command leaves phase CONFIG or keeps what it says, since no frame is built in that phase (R26 (g)). -/
theorem CommandEffect.configIsFresh (h : CommandEffect s out u) (hs : s.ConfigIsFresh) : u.ConfigIsFresh := by
  cases h with
  | nothing | wrsid | wrctl => exact hs
  | error e => exact fun hp => absurd hp (by simp)
  | start | finish => exact fun hp => nomatch hp
  | build _ _ _ hphase =>
    intro hp
    obtain rfl | rfl := hphase <;> cases hp

/-! ### The error record (R11, R12) -/

theorem CommandEffect.errorRecorded (h : CommandEffect s out u) (hs : s.ErrorRecorded) : u.ErrorRecorded := by
  obtain ⟨hiff, hle⟩ := hs
  have hclear {p : Phase} (hp : s.phase = p) (hne : p ≠ .error) : s.errcode = 0 :=
    not_not.1 (mt hiff.2 (hp ▸ hne))
  cases h with
  | nothing | wrsid | wrctl => exact ⟨hiff, hle⟩
  | error e =>
    by_cases hp : s.phase = .error
    · rw [State.recordError, if_pos hp]
      exact ⟨hiff, hle⟩
    · rw [State.recordError, if_neg hp]
      exact ⟨iff_of_true rfl e.code_ne_zero, e.code_le⟩
  | start hp _ => exact ⟨iff_of_false Phase.noConfusion (not_not.2 (hclear hp Phase.noConfusion)), hle⟩
  | finish hp => exact ⟨iff_of_false Phase.noConfusion (not_not.2 (hclear hp Phase.noConfusion)), hle⟩
  | @build _ _ _ v p hp hl hb hphase =>
    have hv : v.errcode = s.errcode := by
      have hbuilt := State.buildFrame_buildOnly hl hb
      unfold BuildOnly at hbuilt
      rw [hbuilt]
    have hne : p ≠ .error := by obtain rfl | rfl := hphase <;> exact Phase.noConfusion
    refine ⟨iff_of_false hne (not_not.2 ?_), ?_⟩
    · exact hv.trans (hclear hp Phase.noConfusion)
    · exact hv ▸ hle

/-! ### The identity of a run (R152, R154) -/

theorem State.sidHoldsHash_eq_false_iff (s : State) : s.sidHoldsHash = false ↔ ∀ k : Fin 32, s.sid[k] ≠ 0x23 := by
  rw [← Bool.not_eq_true, s.sidHoldsHash_iff, not_exists]

/-- The check of `START` holds for the run that follows: outside CONFIG the identity is not written, and in CONFIG no
frame is built. -/
theorem CommandEffect.identityChecked (h : CommandEffect s out u) (hfresh : s.ConfigIsFresh)
    (hs : s.IdentityChecked) : u.IdentityChecked := by
  have hconfig (hp : s.phase = .config) {v : State} (hvp : v.phase = s.phase) (hvf : v.fc = s.fc) :
      v.IdentityChecked := by
    obtain ⟨hfc, -⟩ := hfresh hp
    simp [State.IdentityChecked, hvp, hvf, hp, hfc]
  cases h with
  | nothing => exact hs
  | error e =>
    intro hrun
    have hfc : 0 < s.fc := by simpa using hrun
    simpa [State.sidHoldsHash] using hs (.inr (.inr hfc))
  | wrsid hp k d => exact hconfig hp rfl rfl
  | wrctl hp l e => exact hconfig hp rfl rfl
  | start hp hclear => exact fun _ => hclear
  | finish hp => exact fun _ => hs (.inl hp)
  | @build _ _ _ v p hp hl hb hphase =>
    intro _
    have hsid : v.sid = s.sid := (State.buildFrame_buildOnly hl hb).sameConfig.sid
    have hclear : s.sidHoldsHash = false := hs (.inl hp)
    simpa [State.sidHoldsHash, hsid] using hclear

theorem step_identityChecked {t : State} (hfresh : s.ConfigIsFresh) (hs : s.IdentityChecked) (h : step s = .next t) :
    t.ConfigIsFresh ∧ t.IdentityChecked :=
  step_keeps (P := fun s => s.ConfigIsFresh ∧ s.IdentityChecked) (fun _ => ⟨fun _ => ⟨rfl, rfl⟩, fun _ => rfl⟩)
    (fun _ _ hs => hs) (fun hs h => ⟨h.configIsFresh hs.1, h.identityChecked hs.1 hs.2⟩) ⟨hfresh, hs⟩ h

end

/-! ### The statements on the cycle, the error record and the identity -/

/-- Settles O50: the cycle moves only when a frame is built, by three bytes as `FC` moves by one; and nothing but `rst`
enters phase CONFIG. -/
theorem cycleStaysAtTheFrameCount : Obligations.CycleStaysAtTheFrameCount := by
  unfold Obligations.CycleStaysAtTheFrameCount
  intro s t hfresh hcycle
  refine step_keeps (P := fun s => s.ConfigIsFresh ∧ s.CycleAtFrameCount) (fun s => ⟨fun _ => ⟨rfl, rfl⟩, rfl⟩)
    (fun s r hs => hs) ?_ ⟨hfresh, hcycle⟩
  intro s u out ⟨hfresh, hcycle⟩ h
  refine ⟨h.configIsFresh hfresh, ?_⟩
  obtain hcontrol | ⟨fin, scf, sa, m, v, p, -, hl, hbuilds, -, rfl⟩ := h.controlOnly_or_builds
  · rw [hcontrol]
    exact hcycle
  · exact hbuilds.cycle hcycle

/-- Settles O51: an error is recorded with the move to phase ERROR, every other effect leaves the code, and in phase
ERROR a command changes nothing of the block. -/
theorem errorRecordStaysExact : Obligations.ErrorRecordStaysExact := by
  unfold Obligations.ErrorRecordStaysExact
  constructor
  · intro s t
    exact step_keeps (P := State.ErrorRecorded)
      (fun s => ⟨iff_of_false Phase.noConfusion (not_not.2 rfl), Nat.zero_le 5⟩) (fun s r hs => hs) (fun hs h => h.errorRecorded hs)
  · intro s t w hp h
    exact (congrArg State.errcode (h.sameBlock_of_error hp)).symm

/-- Settles O52: the bytes of the identity by the check of `START`, which a run keeps (`step_identityChecked`). -/
theorem identityOfARunHoldsNoHash : Obligations.IdentityOfARunHoldsNoHash := by
  unfold Obligations.IdentityOfARunHoldsNoHash
  intro s t hfresh hs h
  simp only [← State.sidHoldsHash_eq_false_iff] at hs ⊢
  exact (step_identityChecked hfresh hs h).2

end Sys2Proof.Machine
end

section
/-! The bytes that a built frame takes from the message cycle (41_control_message_cycle.md R98, R100), the flag bits and
the message buffer after it, and with them the whole invariant. -/

namespace Sys2Proof.Machine

section
variable {s u t sa : State} {fin : Frame} {scf : Vector Byte 4} {out : Option Frame} {m : Memory}

/-! ### The present message -/

/-- The message that the buffer holds once one was generated (10_state.md R17): that of the template before `ROT`. -/
def State.presentMessage (s : State) : List Byte := message s.par (templateBody s.rot.pred s.sid s.layout)

theorem State.msg_getElem_of_buffer (hb : s.BufferHoldsMessage) (h0 : s.mlen ≠ 0) {k : Nat} (hk : k < 40) :
    s.msg[k] = s.presentMessage.getD k 0 := by
  have hmsg : s.msg = msgBuffer s.presentMessage := hb.trans (if_neg h0)
  simp only [hmsg, msgBuffer_getElem _ k hk]

/-- `NextByte` answers the byte of the present message before the cursor that it leaves (R98). -/
theorem State.nextByte_present {b : Byte} (hr : s.CursorInRange) (hb : s.BufferHoldsMessage)
    (h : s.nextByte = .ok (b, t)) :
    t.BufferHoldsMessage ∧ b = t.presentMessage.getD (t.cur.toNat - 1) 0 := by
  by_cases hend : s.cur = s.mlen
  · cases (State.nextByte_of_end hend).symm.trans h
    have hpresent : State.presentMessage { s.genMsg with cur := 1 } = s.nextMessage := by
      simp [State.presentMessage, State.nextMessage]
    have h0 : s.genMsg.mlen ≠ 0 := by
      intro h0
      have hlen := s.genMsg_mlen_toNat
      have hpos := messageLength_pos s.rot
      simp [h0] at hlen
      omega
    constructor
    · show s.genMsg.msg = if s.genMsg.mlen = 0 then _ else msgBuffer (State.presentMessage { s.genMsg with cur := 1 })
      rw [if_neg h0, hpresent, s.genMsg_msg]
    · rw [hpresent]
      exact s.nextMessage_getD_zero.symm
  · obtain ⟨hcur, hmlen⟩ := hr
    have hne : s.cur.toNat ≠ s.mlen.toNat := fun he => hend (BitVec.eq_of_toNat_eq he)
    have h0 : s.mlen ≠ 0 := by
      intro h0
      simp [h0] at hcur hne
      omega
    have hnext : (s.cur + 1).toNat - 1 = s.cur.toNat := by
      rw [BitVec.toNat_add]
      simp
      omega
    cases (State.nextByte_of_inside hend (by omega)).symm.trans h
    refine ⟨hb, ?_⟩
    rw [State.msg_getElem_of_buffer hb h0, hnext]
    rfl

/-! ### The three bytes of `BuildAnc` -/

/-- What `BuildAnc` answers, by its three calls of `NextByte` (42_ancillary_builder.md R110). -/
theorem State.buildAnc_bytes (h : s.buildAnc = .ok sa) :
    ∃ b15 s1 b16 s2 b17 s3, s.nextByte = .ok (b15, s1) ∧ s1.nextByte = .ok (b16, s2) ∧
      s2.nextByte = .ok (b17, s3) ∧ sa = { s3 with
        anc15 := withFlag s.par.bit7 false b15
        anc16 := withFlag s.par.bit7 false b16
        anc17 := withFlag s.par.bit7 s.ie b17 } := by
  obtain ⟨b15, s1, b16, s2, b17, s3, h15, h16, h17, -⟩ := State.buildAnc_ok h
  have hanc := State.buildAnc_of_nextBytes h15 h16 h17
  exact ⟨b15, s1, b16, s2, b17, s3, h15, h16, h17, Except.ok.inj (h.symm.trans hanc)⟩

/-- With the cursor in range, `NextByte` keeps it there and moves the position by one byte. -/
theorem State.nextByte_position {b : Byte} (hr : s.CursorInRange) (h : s.nextByte = .ok (b, t)) :
    t.CursorInRange ∧ t.position = positionAfterByte s.position := by
  obtain ⟨b', t', h', hrange, -, hposition⟩ := State.nextByte_of_range hr
  cases h.symm.trans h'
  exact ⟨hrange, hposition⟩

theorem State.buildAnc_buffer (hr : s.CursorInRange) (hb : s.BufferHoldsMessage) (h : s.buildAnc = .ok sa) :
    sa.BufferHoldsMessage := by
  obtain ⟨b15, s1, b16, s2, b17, s3, h15, h16, h17, rfl⟩ := State.buildAnc_bytes h
  obtain ⟨hr1, -⟩ := State.nextByte_position hr h15
  obtain ⟨hr2, -⟩ := State.nextByte_position hr1 h16
  obtain ⟨hb1, -⟩ := State.nextByte_present hr hb h15
  obtain ⟨hb2, -⟩ := State.nextByte_present hr1 hb1 h16
  obtain ⟨hb3, -⟩ := State.nextByte_present hr2 hb2 h17
  exact hb3

/-! ### The flag bits (R26 (e)) -/

/-- A flag put before seven bits is bit 7. -/
theorem flag_append_getLsbD (flag : Bool) (x : BitVec 7) (p : Nat) :
    BitVec.getLsbD (w := 8) (BitVec.ofBool flag ++ x) p =
      if p < 7 then x.getLsbD p else (BitVec.ofBool flag).getLsbD (p - 7) :=
  BitVec.getLsbD_append

theorem withFlag_replaceBit_getLsbD_seven (flag : Bool) (b : Byte) :
    (withFlag .replaceBit flag b).getLsbD 7 = flag := by
  rw [withFlag, flag_append_getLsbD, if_neg (by decide)]
  cases flag <;> rfl

theorem Builds.flagBits (h : Builds s fin scf out sa m u) : u.FlagBits := by
  obtain ⟨b15, s1, b16, s2, b17, s3, -, -, -, hsa⟩ := State.buildAnc_bytes h.buildAnc
  have hanc := h.ancOnly
  unfold AncOnly at hanc
  have hpar : u.par = s.par := by rw [h.block, hanc]
  have hie : u.ie = s.ie := by rw [h.block, hanc]
  have h15 : u.anc15 = withFlag s.par.bit7 false b15 := by rw [h.block, hsa]
  have h16 : u.anc16 = withFlag s.par.bit7 false b16 := by rw [h.block, hsa]
  have h17 : u.anc17 = withFlag s.par.bit7 s.ie b17 := by rw [h.block, hsa]
  intro hmode
  rw [h15, h16, h17, hie, ← hpar, hmode]
  exact ⟨withFlag_replaceBit_getLsbD_seven _ _, withFlag_replaceBit_getLsbD_seven _ _,
    fun _ => withFlag_replaceBit_getLsbD_seven _ _⟩

/-- `IE` changes in phase CONFIG alone, where no frame has been built yet. -/
theorem CommandEffect.flagBits (h : CommandEffect s out u) (hfresh : s.ConfigIsFresh) (hs : s.FlagBits) :
    u.FlagBits := by
  cases h with
  | nothing | wrsid | start | finish => exact hs
  | error e => simpa [State.FlagBits] using hs
  | wrctl hp l e =>
    obtain ⟨hfc, -⟩ := hfresh hp
    intro hmode
    obtain ⟨h15, h16, -⟩ := hs hmode
    exact ⟨h15, h16, fun hpos => absurd hfc (Nat.ne_of_gt hpos)⟩
  | build _ hl hb _ =>
    obtain ⟨sa, m, hbuilds⟩ := State.buildFrame_builds hl hb
    have hv := hbuilds.flagBits
    exact hv

/-! ### The message buffer (R17) -/

/-- The identity and the layout change in phase CONFIG alone, where no message has been generated yet. -/
theorem CommandEffect.buffer (h : CommandEffect s out u) (hfresh : s.ConfigIsFresh) (hr : s.CursorInRange)
    (hs : s.BufferHoldsMessage) : u.BufferHoldsMessage := by
  have hconfig (hp : s.phase = .config) {v : State} (hmsg : v.msg = s.msg) (hmlen : v.mlen = s.mlen) :
      v.BufferHoldsMessage := by
    obtain ⟨-, h0⟩ := hfresh hp
    rw [State.BufferHoldsMessage, if_pos h0] at hs
    rw [State.BufferHoldsMessage, hmsg, hmlen, if_pos h0, hs]
  cases h with
  | nothing | start | finish => exact hs
  | error e => simpa [State.BufferHoldsMessage] using hs
  | wrsid hp k d => exact hconfig hp rfl rfl
  | wrctl hp l e => exact hconfig hp rfl rfl
  | build _ hl hb _ =>
    obtain ⟨sa, m, hbuilds⟩ := State.buildFrame_builds hl hb
    have hsa := State.buildAnc_buffer hr hs hbuilds.buildAnc
    rw [hbuilds.block]
    exact hsa

/-! ### The invariant -/

/-- The clauses that `State.range_and_length_of_cycle` does not give from the others. -/
theorem State.inv_of {s : State} (hcw : s.CodewordsOfAnc ∧ s.LowCodewordsZero) (hflags : s.FlagBits)
    (hcycle : s.ConfigIsFresh ∧ s.CycleAtFrameCount) (hloaded : s.SlotsLoaded) (hcanonical : s.SlotsCanonical)
    (hbuffer : s.BufferHoldsMessage) (herror : s.ErrorRecorded) (hidentity : s.IdentityChecked) : s.Inv := by
  obtain ⟨hanc, hlow⟩ := hcw
  obtain ⟨hfresh, hposition⟩ := hcycle
  obtain ⟨hrange, hlength⟩ := State.range_and_length_of_cycle hposition
  exact ⟨hrange, hlength, hlow, hanc, hflags, hposition, hfresh, hloaded, hcanonical, hbuffer, herror, hidentity⟩

theorem State.applyReset_inv (s : State) : s.applyReset.Inv :=
  have hzero : (0 : Byte).getLsbD 7 = false := rfl
  State.inv_of (State.codewords_of_cw s.applyReset_cw)
    (fun _ => ⟨hzero, hzero, fun h => absurd h (Nat.lt_irrefl 0)⟩) ⟨fun _ => ⟨rfl, rfl⟩, rfl⟩
    ⟨fun h => absurd h (Nat.lt_irrefl 0), fun h => absurd h (Nat.not_lt_zero 1)⟩ ⟨⟨rfl, rfl⟩, ⟨rfl, rfl⟩⟩ rfl
    ⟨iff_of_false Phase.noConfusion (not_not.2 rfl), Nat.zero_le 5⟩ (fun _ => rfl)

/-! ### The frames emitted (43_frame_scheduler.md R135, R136) -/

theorem State.emitted_respond (s : State) (r : Response) : (s.respond r).emitted = s.emitted ++ r.out.toList := by
  rw [State.emitted, State.respond_responses, List.filterMap_append, State.emitted]
  cases hout : r.out <;> simp [hout]

/-- The number of frames that should have been emitted since reset. -/
def State.framesDue (s : State) : Nat := if s.ie then s.fc - 1 else s.fc

theorem CommandEffect.responses (h : CommandEffect s out u) : u.responses = s.responses := by
  cases h with
  | error e => exact s.recordError_responses e
  | build _ hl hb _ => exact (State.buildFrame_buildOnly hl hb).responses
  | nothing | wrsid | wrctl | start | finish => rfl

/-- A command emits the frame that becomes due; `IE` changes only before the first frame. -/
theorem CommandEffect.framesDue (h : CommandEffect s out u) (hfresh : s.ConfigIsFresh) :
    u.framesDue = s.framesDue + out.toList.length := by
  cases h with
  | nothing | wrsid | start | finish => rfl
  | error e => simp [State.framesDue]
  | wrctl hp l e =>
    obtain ⟨hfc, -⟩ := hfresh hp
    simp [State.framesDue, hfc]
  | @build _ _ _ v p hp hl hb hphase =>
    obtain ⟨sa, m, hbuilds⟩ := State.buildFrame_builds hl hb
    have hie : v.ie = s.ie := (State.buildFrame_buildOnly hl hb).sameConfig.ie
    have hemits := hbuilds.emits
    show (if v.ie then v.fc - 1 else v.fc) = (if s.ie then s.fc - 1 else s.fc) + out.toList.length
    rw [hie, hbuilds.fc]
    cases out with
    | none =>
      obtain ⟨hon, hfc⟩ := hemits.1 rfl
      simp [hon, hfc]
    | some f =>
      cases hon : s.ie with
      | false => rfl
      | true =>
        have hfc : s.fc ≠ 0 := fun hfc => nomatch hemits.2 ⟨hon, hfc⟩
        show s.fc = s.fc - 1 + 1
        omega

end

/-! ### The statements on the invariant -/

/-- Settles O44. -/
theorem invHoldsAtReset : Obligations.InvHoldsAtReset := by
  unfold Obligations.InvHoldsAtReset
  exact ⟨State.reset.applyReset_inv, rfl⟩

/-- Settles O45: clause by clause, from the statements on each; the flag bits and the buffer need that the configuration
is written only before the first frame. -/
theorem invKeptByEveryStep : Obligations.InvKeptByEveryStep := by
  unfold Obligations.InvKeptByEveryStep
  intro s t hs h
  obtain ⟨hrange, -, hlow, hanc, hflags, hposition, hfresh, hloaded, hcanonical, hbuffer, herror, hidentity⟩ := hs
  obtain ⟨herrorStep, -⟩ := errorRecordStaysExact
  obtain ⟨-, hidentity'⟩ := step_identityChecked hfresh hidentity h
  obtain ⟨hflags', hbuffer'⟩ : t.FlagBits ∧ t.BufferHoldsMessage := by
    obtain rfl | rfl | ⟨r, u, hu, rfl⟩ := step_effect h
    · exact ⟨hflags, hbuffer⟩
    · obtain ⟨-, -, -, -, hflags', -, -, -, -, hbuffer', -, -⟩ := s.applyReset_inv
      exact ⟨hflags', hbuffer'⟩
    · exact ⟨hu.flagBits hfresh hflags, hu.buffer hfresh hrange hbuffer⟩
  exact State.inv_of (codewordsStayThoseOfAnc s t hanc hlow h) hflags'
    (cycleStaysAtTheFrameCount s t hfresh hposition h) (loadedSlotsStayLoaded s t hloaded h) (slotsStayCanonical s t hcanonical h) hbuffer' (herrorStep s t herror h)
    hidentity'

/-- Settles O40: a command responds with the frame that becomes due (`CommandEffect.framesDue`). -/
theorem everyFrameDueHasBeenEmitted : Obligations.EveryFrameDueHasBeenEmitted := by
  unfold Obligations.EveryFrameDueHasBeenEmitted
  intro s t hinv hs h
  obtain ⟨-, -, -, -, -, -, hfresh, -⟩ := hinv
  obtain rfl | rfl | ⟨r, u, hu, rfl⟩ := step_effect h
  · exact hs
  · rfl
  · have hemitted : u.emitted = s.emitted := by rw [State.emitted, hu.responses, State.emitted]
    show (u.respond r).emitted.length = u.framesDue
    rw [State.emitted_respond, hemitted, List.length_append, hs, hu.framesDue hfresh]
    rfl

end Sys2Proof.Machine
end

section
/-! The frame scheduler (43_frame_scheduler.md) with the check on: the frame held and the frame stamped (R131, R133,
R136), two frames in a row, and that no state of the invariant stops the block. -/

namespace Sys2Proof.Machine

/-! ### No frame, or a wrong length (R132, R134) -/

theorem exec_of_empty {s : State} (hp : s.phase = .run) (h0 : s.fin.length = 0) :
    exec .produce s = .next (s.respond .done) ∧ exec .eos s = .next ({ s with phase := .done }.respond .done) := by
  simp only [exec, execProduce, execEos, if_pos hp, if_pos h0, and_self]

theorem exec_of_wrongLength {s : State} (hp : s.phase = .run) (h0 : s.fin.length ≠ 0) (hl : s.fin.length ≠ s.fBytes) :
    exec .produce s = .next (s.raise .lenErr) ∧ exec .eos s = .next (s.raise .lenErr) := by
  simp only [exec, execProduce, execEos, if_pos hp, if_neg h0, if_neg hl, and_self]

/-- The commands that phase RUN alone accepts (60_exceptions.md R174). -/
theorem exec_of_ne_run {s : State} (hp : s.phase ≠ .run) :
    exec .produce s = .next (s.raise .seqErr) ∧ exec .eos s = .next (s.raise .seqErr) :=
  ⟨exec_of_not_accepts (beq_false_of_ne hp), exec_of_not_accepts (beq_false_of_ne hp)⟩

/-- Settles O35. -/
theorem emptyAndWrongLengthsBuildNothing : Obligations.EmptyAndWrongLengthsBuildNothing := by
  unfold Obligations.EmptyAndWrongLengthsBuildNothing
  exact fun s => ⟨exec_of_empty, exec_of_wrongLength, exec_of_ne_run⟩

/-! ### The stamp (R133) -/

/-- The state with the integrity field in the gap of the previous slot. -/
def State.stampPrevious (s : State) (scf : Vector Byte 4) : State :=
  s.setSlot s.previousSlot ((s.slot s.previousSlot).putAll gapOff scf.toList)

theorem State.memWrite_gap (s : State) (scf : Vector Byte 4) :
    s.memWrite s.previousSlot gapOff scf.toList = .ok (s.stampPrevious scf) := by
  rw [State.memWrite, Memory.write_of_le _ (s.gap_le_fBytes scf)]
  rfl

theorem State.stampAndEmit_of_first {s : State} (scf : Vector Byte 4) (hie : s.ie = true) (hfc : s.fc = 0) :
    s.stampAndEmit scf = .ok (none, s.stampPrevious scf) := by
  simp [State.stampAndEmit, hie, State.memWrite_gap, State.stampPrevious, hfc]

theorem State.stampAndEmit_of_later {s : State} {scf : Vector Byte 4} {f : Frame} (hie : s.ie = true) (hfc : 0 < s.fc)
    (hread : ((s.slot s.previousSlot).putAll gapOff scf.toList).read s.fBytes 0 s.fBytes = .ok f) :
    s.stampAndEmit scf = .ok (some f, s.stampPrevious scf) := by
  have hprev : (s.stampPrevious scf).previousSlot = s.previousSlot := by
    simp [State.stampPrevious, State.previousSlot, State.currentSlot]
  have hslot : (s.stampPrevious scf).memRead s.previousSlot 0 s.fBytes = .ok f := by
    rw [State.memRead, State.stampPrevious, State.setSlot_slot, State.setSlot_fBytes, hread]
  have hfc' : (s.stampPrevious scf).fc ≠ 0 := by
    rw [State.stampPrevious, State.setSlot_fc]
    omega
  have hfb : (s.stampPrevious scf).fBytes = s.fBytes := State.setSlot_fBytes _ _ _
  simp only [State.stampAndEmit, hie, if_true, State.memWrite_gap, if_neg hfc', hprev, hfb, hslot]

/-- The four bytes of the gap are those of the integrity field, every other byte is as it was. -/
theorem Memory.byte?_stamp (m : Memory) (scf : Vector Byte 4) (o : Nat) :
    (m.putAll gapOff scf.toList).byte? o =
      if 0x23A ≤ o ∧ o < 0x23E then some (scf.toList.getD (o - 0x23A) 0) else m.byte? o := by
  rw [Memory.byte?_putAll, Vector.length_toList]
  by_cases h : 0x23A ≤ o ∧ o < 0x23E
  · have hlt : o - 0x23A < scf.toList.length := by
      rw [Vector.length_toList]
      omega
    rw [if_pos h, if_pos (by simpa [gapOff] using h), gapOff, List.getElem?_eq_getElem hlt,
      List.getD_eq_getElem _ _ hlt]
  · rw [if_neg h, if_neg (by simpa [gapOff] using h)]

theorem stampedFrame_of_holds {m : Memory} {scf : Vector Byte 4} {old out : Frame} (hlen : out.length = old.length)
    (hold : Memory.holds m old) (hout : Memory.holds (m.putAll gapOff scf.toList) out) : StampedFrame scf old out := by
  refine ⟨hlen, fun o ho => ?_⟩
  have hbyte := hout o (hlen ▸ ho)
  rw [Memory.byte?_stamp, hold o ho, ← apply_ite some] at hbyte
  exact (Option.some.inj hbyte).symm

/-- A slot holds one frame of a given length. -/
theorem Memory.holds_unique {m : Memory} {f g : Frame} (hlen : f.length = g.length) (hf : Memory.holds m f)
    (hg : Memory.holds m g) : f = g := by
  apply List.ext_getElem hlen
  intro o ho ho'
  have hbyte := (hf o ho).symm.trans (hg o ho')
  rw [List.getD_eq_getElem _ _ ho, List.getD_eq_getElem _ _ ho'] at hbyte
  exact Option.some.inj hbyte

/-! ### A build with the check on -/

/-- The state that a build with the check on responds from: `u` is the state with the frame loaded. -/
def State.stampAndCount (u : State) (scf : Vector Byte 4) : State := (u.stampPrevious scf).countFrame

section
variable {s u : State} {fin held : Frame} {scf : Vector Byte 4}

theorem LoadsFrame.previousSlot (h : LoadsFrame s fin held u) : u.previousSlot = s.previousSlot := by
  rw [State.previousSlot, h.currentSlot, State.previousSlot]

/-- The previous slot is stamped. -/
theorem LoadsFrame.stamped_previous (h : LoadsFrame s fin held u) :
    (u.stampAndCount scf).slot s.previousSlot = (s.slot s.previousSlot).putAll gapOff scf.toList := by
  rw [State.stampAndCount, State.countFrame_slot, State.stampPrevious, h.previousSlot, State.setSlot_slot, h.previous]

/-- The current slot keeps the frame loaded. -/
theorem LoadsFrame.stamped_current (h : LoadsFrame s fin held u) :
    (u.stampAndCount scf).slot s.currentSlot = u.slot s.currentSlot := by
  rw [State.stampAndCount, State.countFrame_slot, State.stampPrevious, h.previousSlot,
    State.setSlot_slot_ne _ (show s.currentSlot ≠ s.previousSlot from SlotId.ne_other _)]

/-- No byte beyond the frames is written. -/
theorem LoadsFrame.stamped_beyond (h : LoadsFrame s fin held u) (i : SlotId) (o : Nat) (ho : s.fBytes ≤ o) :
    (u.stampAndCount scf).byteAt i o = s.byteAt i o := by
  have hle := s.le_fBytes
  refine s.forall_slot (Q := fun i => (u.stampAndCount scf).byteAt i o = s.byteAt i o) ?_ ?_ i
  · rw [State.byteAt, h.stamped_current]
    exact h.beyond _ o ho
  · rw [State.byteAt, h.stamped_previous, Memory.byte?_stamp, if_neg (by omega)]
    rfl

theorem State.stampAndCount_cw (u : State) (scf : Vector Byte 4) : (u.stampAndCount scf).cw = u.cw :=
  State.setSlot_cw _ _ _

/-- The first frame is kept (R131 step 3a). -/
theorem LoadsFrame.buildFrame_of_first (h : LoadsFrame s fin held u) (scf : Vector Byte 4) (hie : s.ie = true)
    (hfc : s.fc = 0) : s.buildFrame fin scf = .ok (none, u.stampAndCount scf) :=
  State.buildFrame_of_steps h.ok (State.stampAndEmit_of_first scf (h.ie.trans hie) (h.fc.trans hfc))

/-- The previous slot holds a frame once there was one, and it goes out stamped (R133). -/
theorem LoadsFrame.buildFrame_of_later (h : LoadsFrame s fin held u) (scf : Vector Byte 4) (hie : s.ie = true)
    (hfc : 0 < s.fc) (hcanonical : s.SlotsCanonical) (hloaded : s.SlotsLoaded) :
    ∃ old out, s.buildFrame fin scf = .ok (some out, u.stampAndCount scf) ∧ old.length = s.fBytes ∧
      Memory.holds (s.slot s.previousSlot) old ∧ StampedFrame scf old out ∧
      Memory.holds ((u.stampAndCount scf).slot s.previousSlot) out := by
  obtain ⟨hlast, -⟩ := hloaded
  have hfull : Memory.full s.fBytes (s.slot s.previousSlot) := s.previousSlot_eq hfc ▸ hlast hfc
  obtain ⟨hwf, -⟩ := State.slot_canonical hcanonical s.previousSlot
  obtain ⟨old, -, hlen, hold⟩ := Memory.read_of_full hwf hfull
  obtain ⟨out, hread, hlen', hout⟩ :=
    Memory.read_of_full (Memory.putAll_wf hwf gapOff scf.toList) (Memory.putAll_isSome hfull gapOff scf.toList)
  refine ⟨old, out, ?_, hlen, hold, stampedFrame_of_holds (hlen'.trans hlen.symm) hold hout, ?_⟩
  · apply State.buildFrame_of_steps h.ok (State.stampAndEmit_of_later (h.ie.trans hie) (h.fc.symm ▸ hfc) _)
    rw [h.previousSlot, h.previous, h.fBytes, hread]
  · rw [h.stamped_previous]
    exact hout

end

/-- Settles O37: with no frame before it the loaded frame is kept, and the stamp goes to the other slot. -/
theorem theFirstFrameIsHeldWithTheCheck : Obligations.TheFirstFrameIsHeldWithTheCheck := by
  unfold Obligations.TheFirstFrameIsHeldWithTheCheck
  intro s hinv hrun hie hfc hl
  obtain ⟨hrange, -, -, -, -, -, -, -, hcanonical, -⟩ := hinv
  obtain ⟨held, u, hload⟩ := State.loadsFrame hrange hcanonical hl
  have hbuild := hload.buildFrame_of_first s.scf hie hfc
  have honly : BuildOnly s (u.stampAndCount s.scf) := State.buildFrame_buildOnly hl hbuild
  obtain ⟨hproduce, heos⟩ := exec_of_buildFrame hrun hl hbuild
  have hcurrent : s.currentSlot = .zero := by rw [State.currentSlot, hfc]; rfl
  have hprevious : s.previousSlot = .one := by rw [State.previousSlot, hcurrent]; rfl
  refine ⟨(u.stampAndCount s.scf).respond (.frame none), held, hproduce, heos, ?response, ?inserted, ?current, ?gap,
    honly.respond _, hload.stamped_beyond⟩
  case response => rw [State.respond_responses, honly.responses, Response.frame]
  case inserted =>
    rw [State.respond_cw, State.stampAndCount_cw]
    exact hload.inserted
  case current =>
    have hholds := hload.holds
    rw [← hload.stamped_current (scf := s.scf), hcurrent] at hholds
    exact hholds
  case gap =>
    intro o
    have hslot := hload.stamped_previous (scf := s.scf)
    rw [hprevious] at hslot
    rw [State.byteAt, State.respond_slot, hslot, Memory.byte?_stamp, State.byteAt]

/-- Settles O38: the previous slot holds a frame, the stamp changes its gap alone, and it is read whole. -/
theorem thePreviousFrameGoesOutStamped : Obligations.ThePreviousFrameGoesOutStamped := by
  unfold Obligations.ThePreviousFrameGoesOutStamped
  intro s hinv hrun hie hfc hl
  obtain ⟨hrange, -, -, -, -, -, -, hloaded, hcanonical, -⟩ := hinv
  obtain ⟨held, u, hload⟩ := State.loadsFrame hrange hcanonical hl
  obtain ⟨old, out, hbuild, hlen, hold, hstamped, hout⟩ :=
    hload.buildFrame_of_later s.scf hie hfc hcanonical hloaded
  have honly : BuildOnly s (u.stampAndCount s.scf) := State.buildFrame_buildOnly hl hbuild
  obtain ⟨hproduce, heos⟩ := exec_of_buildFrame hrun hl hbuild
  refine ⟨(u.stampAndCount s.scf).respond (.frame (some out)), old, out, held, hlen, hold, hproduce, heos, ?response,
    hstamped, ?previous, ?inserted, ?current, honly.respond _, hload.stamped_beyond⟩
  case response => rw [State.respond_responses, honly.responses, Response.frame]
  case previous =>
    rw [State.respond_slot]
    exact hout
  case inserted =>
    rw [State.respond_cw, State.stampAndCount_cw]
    exact hload.inserted
  case current =>
    rw [State.respond_slot, hload.stamped_current]
    exact hload.holds

/-! ### Two frames in a row (R136) -/

/-- With the check on, `PRODUCE` leaves the frame with its ancillary bits in the current slot. -/
theorem exec_produce_holds {s : State} (hinv : s.Inv) (hrun : s.phase = .run) (hie : s.ie = true)
    (hl : s.fin.length = s.fBytes) :
    ∃ t held, exec .produce s = .next t ∧ InsertedFrame t.cw s.fin held ∧
      Memory.holds (t.slot s.currentSlot) held ∧ BuildsOneFrame s t := by
  obtain hfc | hfc := Nat.eq_zero_or_pos s.fc
  · obtain ⟨t, held, hproduce, -, -, hinserted, hholds, -, hbuilds, -⟩ :=
      theFirstFrameIsHeldWithTheCheck s hinv hrun hie hfc hl
    have hcurrent : s.currentSlot = .zero := by rw [State.currentSlot, hfc]; rfl
    exact ⟨t, held, hproduce, hinserted, hcurrent ▸ hholds, hbuilds⟩
  · obtain ⟨t, -, -, held, -, -, hproduce, -, -, -, -, hinserted, hholds, hbuilds, -⟩ :=
      thePreviousFrameGoesOutStamped s hinv hrun hie hfc hl
    exact ⟨t, held, hproduce, hinserted, hholds, hbuilds⟩

/-- Settles O39: the frame that the first step leaves in its slot is the previous frame of the second. -/
theorem twoFramesThroughTheDelay : Obligations.TwoFramesThroughTheDelay := by
  unfold Obligations.TwoFramesThroughTheDelay
  intro s w x y a b rest hinv hrun hie hx hy hw hpending
  have hfin : s.fin = x := State.fin_of_pending hpending
  obtain ⟨t, held, hproduce, hinserted, hheld, hbuilds⟩ :=
    exec_produce_holds hinv hrun hie (hfin.symm ▸ hx)
  have hstep : step s = .next t :=
    (step_of_pending_command hpending (decodeOfEncodeIsTheCommand .produce)).trans hproduce
  have hpending' : t.pending = .command w y b :: rest := by
    rw [hbuilds, hpending]
    rfl
  have hfb : t.fBytes = s.fBytes := by
    rw [hbuilds]
    rfl
  have hfc : t.fc = s.fc + 1 := by rw [hbuilds]
  have hprevious : t.previousSlot = s.currentSlot := by
    rw [State.previousSlot, State.currentSlot, hfc, SlotId.ofCounter_succ, SlotId.other_other, State.currentSlot]
  obtain ⟨v, old, out, -, hlen, hold, hproduce', heos', hresponse, hstamped, -⟩ :=
    thePreviousFrameGoesOutStamped t (invKeptByEveryStep s t hinv hstep) (by rw [hbuilds]; exact hrun)
      (by rw [hbuilds]; exact hie) (by omega) (by rw [State.fin_of_pending hpending', hy, hfb])
  have hsame : held = old := by
    refine Memory.holds_unique ?_ hheld (hprevious ▸ hold)
    rw [hinserted.1, hfin, hx, hlen, hfb]
  rw [State.scf_of_pending hpending', ← hsame] at hstamped
  rw [hfin] at hinserted
  obtain rfl | rfl := hw
  · exact ⟨t, v, held, out, hstep,
      (step_of_pending_command hpending' (decodeOfEncodeIsTheCommand .produce)).trans hproduce', hinserted, hstamped,
      hresponse⟩
  · exact ⟨t, { v with phase := .done }, held, out, hstep,
      (step_of_pending_command hpending' (decodeOfEncodeIsTheCommand .eos)).trans heos', hinserted, hstamped, hresponse⟩

/-! ### The block never stops -/

theorem State.buildFrame_answers {s : State} (hinv : s.Inv) {fin : Frame} (hl : fin.length = s.fBytes)
    (scf : Vector Byte 4) : ∃ out u, s.buildFrame fin scf = .ok (out, u) := by
  obtain ⟨hrange, -, -, -, -, -, -, hloaded, hcanonical, -⟩ := hinv
  obtain ⟨held, u, hload⟩ := State.loadsFrame hrange hcanonical hl
  cases hie : s.ie with
  | false => exact ⟨_, _, hload.buildFrame_of_off scf hie⟩
  | true =>
    obtain hfc | hfc := Nat.eq_zero_or_pos s.fc
    · exact ⟨_, _, hload.buildFrame_of_first scf hie hfc⟩
    · obtain ⟨-, out, hbuild, -⟩ := hload.buildFrame_of_later scf hie hfc hcanonical hloaded
      exact ⟨_, _, hbuild⟩

/-- `PRODUCE` and `EOS` by the phase and the length of the frame. -/
theorem exec_produce_eos_answer {s : State} (hinv : s.Inv) :
    (∃ t, exec .produce s = .next t) ∧ ∃ t, exec .eos s = .next t := by
  by_cases hp : s.phase = .run
  · by_cases h0 : s.fin.length = 0
    · exact ⟨⟨_, (exec_of_empty hp h0).1⟩, ⟨_, (exec_of_empty hp h0).2⟩⟩
    · by_cases hl : s.fin.length = s.fBytes
      · obtain ⟨out, u, hbuild⟩ := State.buildFrame_answers hinv hl s.scf
        obtain ⟨hproduce, heos⟩ := exec_of_buildFrame hp hl hbuild
        exact ⟨⟨_, hproduce⟩, ⟨_, heos⟩⟩
      · exact ⟨⟨_, (exec_of_wrongLength hp h0 hl).1⟩, ⟨_, (exec_of_wrongLength hp h0 hl).2⟩⟩
  · exact ⟨⟨_, (exec_of_ne_run hp).1⟩, ⟨_, (exec_of_ne_run hp).2⟩⟩

theorem exec_answers {s : State} (hinv : s.Inv) (i : Instr) : ∃ t, exec i s = .next t := by
  cases i with
  | wrsid | wrctl =>
    by_cases hp : s.phase = .config
    · exact ⟨_, if_pos hp⟩
    · exact ⟨_, if_neg hp⟩
  | start =>
    by_cases hp : s.phase = .config
    · rw [exec_start_of_config hp]
      split <;> exact ⟨_, rfl⟩
    · exact ⟨_, if_neg hp⟩
  | produce => exact (exec_produce_eos_answer hinv).1
  | eos => exact (exec_produce_eos_answer hinv).2
  | rdreg a =>
    cases hr : Reg.ofNumber a with
    | none => exact ⟨_, exec_rdreg_of_unmapped s hr⟩
    | some r => exact ⟨_, exec_rdreg_of_mapped s hr⟩
  | enc4 v => exact ⟨_, exec_enc4 v s⟩
  | enc8 b => exact ⟨_, exec_enc8 b s⟩

/-- Settles O46: only building a frame reads a slot or the message, and it answers in every state of the invariant. -/
theorem invStatesNeverStop : Obligations.InvStatesNeverStop := by
  unfold Obligations.InvStatesNeverStop
  intro s hinv
  cases hp : s.pending with
  | nil => exact ⟨_, waitingChangesNothing s hp⟩
  | cons ev rest =>
    cases ev with
    | rst => exact ⟨_, step_of_pending_rst hp⟩
    | command w fin scf =>
      cases hd : decode w with
      | error e => exact ⟨_, step_of_pending_illegal hp hd⟩
      | ok i =>
        rw [step_of_pending_command hp hd]
        exact exec_answers hinv i

end Sys2Proof.Machine
end

section
/-! The ancillary data by the frame count (41_control_message_cycle.md R100, 43_frame_scheduler.md section 4): the bytes
of a frame are three in a row of the 57 of a rotation, so the data repeats every 19 frames and the audio has no part in
it. -/

namespace Sys2Proof.Machine

/-! ### The rotation byte by byte -/

/-- Where the message of a template starts in the rotation A, B, C (R100). -/
def templateStart : Template → Nat
  | .a => 0
  | .b => 6
  | .c => 19

/-- The rotation holds each message from its start on. -/
theorem cycleBytes_getD (p : Params) (sid : Vector Byte 32) (layout : Layout) (t : Template) {k : Nat}
    (hk : k < messageLength t) :
    (cycleBytes p sid layout).getD (templateStart t + k) 0 = (message p (templateBody t sid layout)).getD k 0 := by
  have hlen (t : Template) : (message p (templateBody t sid layout)).length = messageLength t := by
    rw [message_length, templateBody_length]
    cases t <;> rfl
  have ha := hlen .a
  have hb := hlen .b
  rw [cycleBytes]
  cases t with
  | a =>
    rw [List.append_assoc, List.getD_append _ _ _ _ (by simpa [ha, templateStart] using hk)]
    simp [templateStart]
  | b =>
    have hk : k < 13 := hk
    rw [List.getD_append _ _ _ _ (by simp [ha, hb, templateStart, messageLength]; omega),
      List.getD_append_right _ _ _ _ (by simp [ha, templateStart, messageLength])]
    simp [ha, templateStart, messageLength]
  | c =>
    rw [List.getD_append_right _ _ _ _ (by simp [ha, hb, templateStart, messageLength])]
    simp [ha, hb, templateStart, messageLength]

/-- The byte before the cursor of a position is byte `j` of the rotation. -/
abbrev LastReadAt (j : Nat) (P : Template × Nat × Nat) : Prop :=
  P.2.1 - 1 < messageLength P.1.pred ∧ templateStart P.1.pred + (P.2.1 - 1) = j

/-- The table of R100 repeats every 19 frames. -/
theorem cyclePosition_succ_mod (n : Nat) : cyclePosition (n + 1) = cyclePosition (n % 19 + 1) := by
  simp only [cyclePosition, Nat.mod_mod]

/-- The three bytes of the frame after `n` frames are bytes `3n`, `3n + 1`, `3n + 2` of the rotation (R100). -/
theorem cyclePosition_lastReadAt (n : Nat) :
    LastReadAt (3 * n % 57) (positionAfterByte (cyclePosition n)) ∧
      LastReadAt ((3 * n + 1) % 57) (positionAfterByte (positionAfterByte (cyclePosition n))) ∧
      LastReadAt ((3 * n + 2) % 57) (positionAfterByte (positionAfterByte (positionAfterByte (cyclePosition n)))) := by
  cases n with
  | zero => decide
  | succ n =>
    have hrow : ∀ r < 19,
        LastReadAt (3 * (r + 1) % 57) (positionAfterByte (cyclePosition (r + 1))) ∧
          LastReadAt ((3 * (r + 1) + 1) % 57) (positionAfterByte (positionAfterByte (cyclePosition (r + 1)))) ∧
          LastReadAt ((3 * (r + 1) + 2) % 57)
            (positionAfterByte (positionAfterByte (positionAfterByte (cyclePosition (r + 1))))) := by decide
    have h0 : 3 * (n + 1) % 57 = 3 * (n % 19 + 1) % 57 := by omega
    have h1 : (3 * (n + 1) + 1) % 57 = (3 * (n % 19 + 1) + 1) % 57 := by omega
    have h2 : (3 * (n + 1) + 2) % 57 = (3 * (n % 19 + 1) + 2) % 57 := by omega
    rw [cyclePosition_succ_mod, h0, h1, h2]
    exact hrow (n % 19) (Nat.mod_lt n (by decide))

/-- `NextByte` answers the byte of the rotation that its new position names. -/
theorem State.nextByte_cycleBytes {s t : State} {b : Byte} {j : Nat} (hr : s.CursorInRange)
    (hb : s.BufferHoldsMessage) (h : s.nextByte = .ok (b, t)) (hj : LastReadAt j (positionAfterByte s.position)) :
    b = (cycleBytes s.par s.sid s.layout).getD j 0 := by
  obtain ⟨-, hposition⟩ := State.nextByte_position hr h
  obtain ⟨-, hbyte⟩ := State.nextByte_present hr hb h
  have hcycle : CycleOnly s t := State.nextByte_cycleOnly h
  have hpresent : t.presentMessage = message s.par (templateBody t.rot.pred s.sid s.layout) := by
    rw [State.presentMessage, hcycle]
  rw [← hposition] at hj
  obtain ⟨hinside, rfl⟩ := hj
  rw [hbyte, hpresent]
  exact (cycleBytes_getD s.par s.sid s.layout t.rot.pred hinside).symm

/-- The ancillary bytes that `BuildAnc` writes, in a state where `n` frames have been built. -/
theorem State.buildAnc_cycleBytes {s sa : State} (hr : s.CursorInRange) (hb : s.BufferHoldsMessage)
    (hcycle : s.CycleAtFrameCount) (h : s.buildAnc = .ok sa) :
    sa.anc15 = withFlag s.par.bit7 false ((cycleBytes s.par s.sid s.layout).getD (3 * s.fc % 57) 0) ∧
      sa.anc16 = withFlag s.par.bit7 false ((cycleBytes s.par s.sid s.layout).getD ((3 * s.fc + 1) % 57) 0) ∧
      sa.anc17 = withFlag s.par.bit7 s.ie ((cycleBytes s.par s.sid s.layout).getD ((3 * s.fc + 2) % 57) 0) := by
  obtain ⟨b15, s1, b16, s2, b17, s3, h15, h16, h17, rfl⟩ := State.buildAnc_bytes h
  obtain ⟨hr1, hposition1⟩ := State.nextByte_position hr h15
  obtain ⟨hr2, hposition2⟩ := State.nextByte_position hr1 h16
  obtain ⟨hb1, -⟩ := State.nextByte_present hr hb h15
  obtain ⟨hb2, -⟩ := State.nextByte_present hr1 hb1 h16
  have hc1 : CycleOnly s s1 := State.nextByte_cycleOnly h15
  have hc2 : CycleOnly s s2 := hc1.trans (State.nextByte_cycleOnly h16)
  have hbytes1 : cycleBytes s1.par s1.sid s1.layout = cycleBytes s.par s.sid s.layout := by rw [hc1]
  have hbytes2 : cycleBytes s2.par s2.sid s2.layout = cycleBytes s.par s.sid s.layout := by rw [hc2]
  have hposition : s.position = cyclePosition s.fc := hcycle
  obtain ⟨hj15, hj16, hj17⟩ := cyclePosition_lastReadAt s.fc
  rw [← hposition] at hj15 hj16 hj17
  rw [← hposition1] at hj16 hj17
  rw [← hposition2] at hj17
  rw [State.nextByte_cycleBytes hr hb h15 hj15, State.nextByte_cycleBytes hr1 hb1 h16 hj16,
    State.nextByte_cycleBytes hr2 hb2 h17 hj17, hbytes1, hbytes2]
  exact ⟨rfl, rfl, rfl⟩

/-! ### A built frame as a function of the configuration and the frame count -/

/-- The parts of the block that a built frame leaves independent of the audio, by the configuration before it. -/
structure AncillaryAt (s t : State) : Prop where
  anc15 : t.anc15 = withFlag s.par.bit7 false ((cycleBytes s.par s.sid s.layout).getD (3 * s.fc % 57) 0)
  anc16 : t.anc16 = withFlag s.par.bit7 false ((cycleBytes s.par s.sid s.layout).getD ((3 * s.fc + 1) % 57) 0)
  anc17 : t.anc17 = withFlag s.par.bit7 s.ie ((cycleBytes s.par s.sid s.layout).getD ((3 * s.fc + 2) % 57) 0)
  position : (t.rot, t.cur.toNat, t.mlen.toNat) = cyclePosition (s.fc + 1)
  cw : t.cw = t.codewords
  buffer : t.msg = if t.mlen = 0 then Vector.replicate 40 0
    else msgBuffer (message s.par (templateBody t.rot.pred s.sid s.layout))

/-- `PRODUCE` on a whole frame, in a state of the invariant. -/
theorem exec_produce_ancillary {s : State} (hinv : s.Inv) (hrun : s.phase = .run) (hl : s.fin.length = s.fBytes) :
    ∃ t, exec .produce s = .next t ∧ AncillaryAt s t ∧ BuildsOneFrame s t := by
  obtain ⟨out, u, hbuild⟩ := State.buildFrame_answers hinv hl s.scf
  obtain ⟨hrange, -, -, -, -, hcycle, -, -, -, hbuffer, -⟩ := hinv
  obtain ⟨sa, m, hbuilds⟩ := State.buildFrame_builds hl hbuild
  obtain ⟨hproduce, -⟩ := exec_of_buildFrame hrun hl hbuild
  have honly : BuildOnly s u := State.buildFrame_buildOnly hl hbuild
  obtain ⟨h15, h16, h17⟩ := State.buildAnc_cycleBytes hrange hbuffer hcycle hbuilds.buildAnc
  have hanc : AncOnly s sa := hbuilds.ancOnly
  have hsa : sa.BufferHoldsMessage := State.buildAnc_buffer hrange hbuffer hbuilds.buildAnc
  refine ⟨u.respond (.frame out), hproduce, {
    anc15 := ?anc15
    anc16 := ?anc16
    anc17 := ?anc17
    position := ?position
    cw := ?cw
    buffer := ?buffer }, honly.respond _⟩
  case anc15 => rw [← h15, State.respond_anc15, hbuilds.block]
  case anc16 => rw [← h16, State.respond_anc16, hbuilds.block]
  case anc17 => rw [← h17, State.respond_anc17, hbuilds.block]
  case position => exact hbuilds.fc ▸ hbuilds.cycle hcycle
  case cw =>
    rw [State.respond_cw, hbuilds.cw]
    exact State.codewords_congr rfl rfl rfl
  case buffer =>
    have hmessage : message sa.par (templateBody sa.rot.pred sa.sid sa.layout) =
        message s.par (templateBody sa.rot.pred s.sid s.layout) := by rw [hanc]
    rw [State.BufferHoldsMessage, hmessage] at hsa
    rw [hbuilds.block]
    exact hsa

/-- Settles O41. -/
theorem ancillaryBytesFollowTheCycle : Obligations.AncillaryBytesFollowTheCycle := by
  unfold Obligations.AncillaryBytesFollowTheCycle
  intro s hinv hrun hl
  obtain ⟨t, hproduce, hanc, -⟩ := exec_produce_ancillary hinv hrun hl
  exact ⟨t, hproduce, hanc.anc15, hanc.anc16, hanc.anc17, hanc.position⟩

/-- Two built frames agree in the ancillary data when the configurations agree and the frame counts do modulo 19. -/
theorem AncillaryAt.agree {s s' t t' : State} (h : AncillaryAt s t) (h' : AncillaryAt s' t') (hsid : s.sid = s'.sid)
    (hlayout : s.layout = s'.layout) (hie : s.ie = s'.ie) (hpar : s.par = s'.par) (hfc : s.fc % 19 = s'.fc % 19) :
    t.anc15 = t'.anc15 ∧ t.anc16 = t'.anc16 ∧ t.anc17 = t'.anc17 ∧ t.cw = t'.cw ∧ t.msg = t'.msg ∧
      t.mlen = t'.mlen ∧ t.cur = t'.cur ∧ t.rot = t'.rot := by
  have hj15 : 3 * s.fc % 57 = 3 * s'.fc % 57 := by omega
  have hj16 : (3 * s.fc + 1) % 57 = (3 * s'.fc + 1) % 57 := by omega
  have hj17 : (3 * s.fc + 2) % 57 = (3 * s'.fc + 2) % 57 := by omega
  have h15 : t.anc15 = t'.anc15 := by rw [h.anc15, h'.anc15, hpar, hsid, hlayout, hj15]
  have h16 : t.anc16 = t'.anc16 := by rw [h.anc16, h'.anc16, hpar, hsid, hlayout, hj16]
  have h17 : t.anc17 = t'.anc17 := by rw [h.anc17, h'.anc17, hpar, hsid, hlayout, hie, hj17]
  have hposition : (t.rot, t.cur.toNat, t.mlen.toNat) = (t'.rot, t'.cur.toNat, t'.mlen.toNat) := by
    rw [h.position, h'.position, cyclePosition_succ_mod, hfc, ← cyclePosition_succ_mod]
  obtain ⟨hrot, hcur, hmlen⟩ : t.rot = t'.rot ∧ t.cur.toNat = t'.cur.toNat ∧ t.mlen.toNat = t'.mlen.toNat := by
    simpa only [Prod.mk.injEq] using hposition
  have hmlen : t.mlen = t'.mlen := BitVec.eq_of_toNat_eq hmlen
  refine ⟨h15, h16, h17, ?_, ?_, hmlen, BitVec.eq_of_toNat_eq hcur, hrot⟩
  · rw [h.cw, h'.cw, State.codewords_congr h15 h16 h17]
  · rw [h.buffer, h'.buffer, hmlen, hrot, hpar, hsid, hlayout]

/-- Settles O42. -/
theorem ancillaryDataRepeatsEvery19Frames : Obligations.AncillaryDataRepeatsEvery19Frames := by
  unfold Obligations.AncillaryDataRepeatsEvery19Frames
  intro s s' hinv hinv' hrun hrun' hsid hlayout hie hpar hfc hl hl'
  obtain ⟨t, hproduce, hanc, -⟩ := exec_produce_ancillary hinv hrun hl
  obtain ⟨t', hproduce', hanc', -⟩ := exec_produce_ancillary hinv' hrun' hl'
  exact ⟨t, t', hproduce, hproduce', hanc.agree hanc' hsid hlayout hie hpar hfc⟩

/-- Settles O43: the two states agree in the configuration and the frame count, so the built frames agree in the
ancillary data (`AncillaryAt.agree`), and a built frame leaves the rest of the block (`BuildsOneFrame`). -/
theorem audioDoesNotSteerTheBlock : Obligations.AudioDoesNotSteerTheBlock := by
  unfold Obligations.AudioDoesNotSteerTheBlock
  intro s s' hinv hinv' hrun hl hl' hsame
  simp only [State.mk.injEq] at hsame
  obtain ⟨hphase, herrcode, hsid, hie, hlayout, -, -, -, -, hfc, -, -, -, -, -, -, hpar, -, -⟩ := hsame
  obtain ⟨t, hproduce, hanc, hbuilds⟩ := exec_produce_ancillary hinv hrun hl
  obtain ⟨t', hproduce', hanc', hbuilds'⟩ := exec_produce_ancillary hinv' (hphase ▸ hrun) hl'
  obtain ⟨h15, h16, h17, hcw, hmsg, hmlen, hcur, hrot⟩ :=
    hanc.agree hanc' hsid hlayout hie hpar (congrArg (· % 19) hfc)
  refine ⟨t, t', hproduce, hproduce', ?_⟩
  rw [hbuilds, hbuilds', h15, h16, h17, hcw, hmsg, hmlen, hcur, hrot, hphase, herrcode, hsid, hie, hlayout, hfc, hpar]

end Sys2Proof.Machine
end

section
/-! What `Insert` leaves alone (42_ancillary_builder.md R116), and what of it the bit `IE` reaches
(43_frame_scheduler.md section 4). -/

namespace Sys2Proof.Machine

/-! ### `Insert` -/

/-- What a successful `Insert` did (R115): the codewords of the ancillary bytes interleaved into the one slot. -/
theorem State.insertAnc_ok {s t : State} {sl : SlotId} (h : s.insertAnc sl = .ok t) :
    ∃ sa m, s.buildAnc = .ok sa ∧ interleaveCells s.fBytes sa.codewords (s.slot sl) = .ok m ∧
      t = sa.expand.setSlot sl m := by
  unfold State.insertAnc at h
  split at h
  · cases h
  · next sa hsa =>
    have hanc : AncOnly s sa := State.buildAnc_ancOnly hsa
    unfold State.interleave at h
    split at h
    · cases h
    · next m hm =>
      cases h
      rw [State.expand_slot, hanc.slot, State.expand_cw] at hm
      exact ⟨sa, m, hsa, hanc.fBytes ▸ hm, rfl⟩

/-- The low nibble of the last byte of the region is no place of the stream (R114). -/
theorem insertedByte_lowNibble {cw : Vector Codeword 36} {v w : Byte} (h : InsertedByte cw 0x23F v w) :
    w.toNat % 16 = v.toNat % 16 := by
  have hnone {p : Nat} (hp : p < 4) : streamIndexAt 0x23F p = none := by
    unfold streamIndexAt
    rw [if_neg (by omega), if_neg (by omega), if_neg (by omega)]
  have hlow : lowNibble w = lowNibble v := lowNibble_congr fun p hp => by
    have hbit := h p (by omega)
    rwa [hnone hp] at hbit
  rw [← lowNibble_toNat, ← lowNibble_toNat, hlow]

/-- Settles O33: `Insert` writes one slot, by interleaving, which changes no bit outside the stream's places. -/
theorem insertLeavesTheRestOfTheFrame : Obligations.InsertLeavesTheRestOfTheFrame := by
  unfold Obligations.InsertLeavesTheRestOfTheFrame
  intro s t sl h
  obtain ⟨sa, m, hsa, hm, rfl⟩ := State.insertAnc_ok h
  rw [State.setSlot_slot]
  refine ⟨?other, fun o => ?values, fun o v w hv hw => ⟨?outside, ?nibble⟩⟩
  case other => rw [State.setSlot_slot_other, State.expand_slot, (State.buildAnc_ancOnly hsa).slot]
  case values => rw [← Option.isNone_iff_eq_none, ← Option.isNone_iff_eq_none, ← Option.not_isSome, ← Option.not_isSome,
    interleaveCells_isSome hm]
  case outside => exact insertedByte_outside (interleaveCells_bits hm hv hw)
  case nibble =>
    rintro rfl
    exact insertedByte_lowNibble (interleaveCells_bits hm hv hw)

/-! ### `IE` plays no part in the message cycle -/

theorem State.refill_setIe (s : State) (e : Bool) : { s with ie := e }.refill = { s.refill with ie := e } := by
  unfold State.refill
  split <;> rfl

theorem State.nextByte_setIe {s t : State} {b : Byte} (e : Bool) (h : s.nextByte = .ok (b, t)) :
    { s with ie := e }.nextByte = .ok (b, { t with ie := e }) := by
  obtain ⟨hc, rfl, rfl⟩ := State.nextByte_ok h
  simp [State.nextByte, State.refill_setIe, hc]

/-- With another value of `IE`, `BuildAnc` takes the same bytes and flags the third with that value (R110, R111). -/
theorem State.buildAnc_setIe {s sa : State} (e : Bool) (h : s.buildAnc = .ok sa) :
    ∃ b, sa.anc17 = withFlag s.par.bit7 s.ie b ∧
      { s with ie := e }.buildAnc = .ok { sa with ie := e, anc17 := withFlag s.par.bit7 e b } := by
  obtain ⟨b15, s1, b16, s2, b17, s3, h15, h16, h17, rfl⟩ := State.buildAnc_bytes h
  exact ⟨b17, rfl, State.buildAnc_of_nextBytes (State.nextByte_setIe e h15) (State.nextByte_setIe e h16)
    (State.nextByte_setIe e h17)⟩

/-- A flag reaches bit 7 alone, under either value of `BIT7_MODE` (R111). -/
theorem withFlag_getLsbD_of_lt (mode : Bit7Mode) (flag : Bool) (b : Byte) {p : Nat} (hp : p < 7) :
    (withFlag mode flag b).getLsbD p = b.getLsbD p := by
  cases mode with
  | replaceBit => rw [withFlag, flag_append_getLsbD, if_pos hp, BitVec.getLsbD_extractLsb']; simp [hp]
  | orBit => rw [withFlag, BitVec.getLsbD_or, flag_append_getLsbD, if_pos hp]; simp

/-- Settles O34: `BuildAnc` differs in the flag of `ANC[17]`, and bit 7 of that byte reaches no codeword but the last
(O31). -/
theorem integrityFlagReachesOneCodeword : Obligations.IntegrityFlagReachesOneCodeword := by
  unfold Obligations.IntegrityFlagReachesOneCodeword
  intro s t u sl e ht hu
  obtain ⟨sa, m, hsa, -, rfl⟩ := State.insertAnc_ok ht
  obtain ⟨su, n, hsu, -, rfl⟩ := State.insertAnc_ok hu
  obtain ⟨b, h17, hbuild⟩ := State.buildAnc_setIe e hsa
  cases hbuild.symm.trans hsu
  have hlow : ∀ p < 7, (withFlag s.par.bit7 e b).getLsbD p = sa.anc17.getLsbD p := by
    intro p hp
    rw [h17, withFlag_getLsbD_of_lt _ _ _ hp, withFlag_getLsbD_of_lt _ _ _ hp]
  obtain ⟨-, -, -, -, hcodewords⟩ := expandEncodesEveryNibble sa
  have hie : State.codewords { sa with ie := e, anc17 := withFlag s.par.bit7 e b } =
      State.codewords { sa with anc17 := withFlag s.par.bit7 e b } := State.codewords_congr rfl rfl rfl
  simp only [State.setSlot_anc15, State.setSlot_anc16, State.setSlot_anc17, State.setSlot_cw, State.setSlot_msg,
    State.setSlot_mlen, State.setSlot_cur, State.setSlot_rot, State.expand_cw, hie]
  exact ⟨rfl, rfl, hlow, fun k => hcodewords k _ hlow, rfl, rfl, rfl, rfl⟩

end Sys2Proof.Machine
end
